-- ==== Sys2Proof/Word.lean ====
section
/-!
DEFINITION. The word types of the MPS datapath.

Every register, memory word, instruction word, ALU operand and the pc is 32 bits wide (spec/00_scope.md R8, R10);
the narrower types are the fields that the Instruction Partition unit cuts from an instruction word
(spec/30_encoding.md R61). The spec adds, shifts and masks all of them, so they are bit vectors.
-/

namespace Sys2Proof

/-- A 32-bit unsigned value; arithmetic on it is modulo 2^32 (R8, R10). -/
abbrev Word := BitVec 32

/-- A register index: a 5-bit field, so always in range (R8, R23). -/
abbrev RegIdx := BitVec 5

/-- The 6-bit opcode field and the 6-bit funct field (R61). -/
abbrev Code6 := BitVec 6

/-- The one immediate field (R61, R64). -/
abbrev Imm16 := BitVec 16

/-- The jump-target field (R61). -/
abbrev Target26 := BitVec 26

end Sys2Proof
end

