-- ==== Sys2Proof/Syntax.lean ====
section
/-!
DEFINITION. The instructions and the control vocabulary of the MPS datapath.

`Instr` has one constructor per row of spec/opcode_table.json. An instruction holds every field that the
Instruction Partition unit gives its format (spec/30_encoding.md R61, R63), the register fields it does not use
included (R69: they "are still used to read the register file"). Bits 10:6 of an R-type word are no field (R62),
so they stand nowhere here (notes/assumptions/14.md).
-/

namespace Sys2Proof

/-- The 19 instructions (spec/30_encoding.md R66, R67), their arguments in the order of the word's fields.
The mnemonics are the spec's; several name an operation that is not the MIPS one (spec/00_scope.md R2). -/
inductive Instr where
  /-- R110, funct 32. -/
  | add (rs rt rd : RegIdx)
  /-- R111, funct 34. -/
  | sub (rs rt rd : RegIdx)
  /-- R112, funct 42. -/
  | slt (rs rt rd : RegIdx)
  /-- R113, funct 43. -/
  | sltu (rs rt rd : RegIdx)
  /-- R114, funct 36. -/
  | and (rs rt rd : RegIdx)
  /-- R115, funct 37. -/
  | or (rs rt rd : RegIdx)
  /-- R116, funct 4; `rs` is read and its value unused. -/
  | shift (rs rt rd : RegIdx)
  /-- R117, funct 39; `rt` is read and its value unused. -/
  | nor (rs rt rd : RegIdx)
  /-- R120, opcode 0x08. -/
  | addi (rs rt : RegIdx) (imm : Imm16)
  /-- R121, opcode 0x0c. -/
  | andi (rs rt : RegIdx) (imm : Imm16)
  /-- R122, opcode 0x0d. -/
  | ori (rs rt : RegIdx) (imm : Imm16)
  /-- R123, opcode 0x0a. -/
  | slti (rs rt : RegIdx) (imm : Imm16)
  /-- R124, opcode 0x0b. -/
  | sltiu (rs rt : RegIdx) (imm : Imm16)
  /-- R125, opcode 0x0f; `rs` is read and its value unused. -/
  | lui (rs rt : RegIdx) (imm : Imm16)
  /-- R131, opcode 0x23. -/
  | lw (rs rt : RegIdx) (imm : Imm16)
  /-- R132, opcode 0x2b. -/
  | sw (rs rt : RegIdx) (imm : Imm16)
  /-- R140, opcode 0x04; `rt` is read and its value unused. -/
  | beq (rs rt : RegIdx) (imm : Imm16)
  /-- R141, opcode 0x01; `rs` and `rt` are read and their values unused. -/
  | bge (rs rt : RegIdx) (imm : Imm16)
  /-- R142, opcode 0x02. -/
  | j (target : Target26)
  deriving DecidableEq, Repr

/-- The twelve supported opcodes: the rows of the opcode map and of the control table (R66, R90). -/
inductive Opcode where
  | rType | addi | andi | ori | slti | sltiu | beq | lw | lui | sw | bge | j
  deriving DecidableEq, Repr

/-- The eight supported functs under opcode 0x00, by the source's operation names (R67). -/
inductive Funct where
  | add | sub | slt | sltu | and | or | shift | nor
  deriving DecidableEq, Repr

/-- The seven fields of an instruction word (R61). A field that an instruction's format does not have is given as 0
where a meaning builds its fields from an `Instr`; that no such value matters is a theorem about the datapath. -/
structure Fields where
  opcode : Code6 := 0
  rs     : RegIdx := 0
  rt     : RegIdx := 0
  rd     : RegIdx := 0
  funct  : Code6 := 0
  imm    : Imm16 := 0
  target : Target26 := 0
  deriving DecidableEq, Repr

/-- The value of a binary control signal: 0, 1 or the don't-care X, the source's sentinel 2 (R88, R89). -/
inductive Signal where
  | zero | one | dontCare
  deriving DecidableEq, Repr

/-- A 3-bit ALU code: the type of the control signal ALUOp and of the ALU's selector input (R8, R88). It has exactly
eight values, so the source's row "other" of the ALU table does not exist (R85, spec/93_implementation_defined.md U1). -/
inductive AluCode where
  | c0 | c1 | c2 | c3 | c4 | c5 | c6 | c7
  deriving DecidableEq, Repr

/-- The operations an ALU selector can be mapped to (R81, the names of its rows). -/
inductive AluFn where
  | add | subtract | lessSigned | lessUnsigned | and | or | shift16 | not
  deriving DecidableEq, Repr

/-- The Control Signal Set: nine signals, made afresh for each instruction (R88). -/
structure Control where
  regDst   : Signal
  jump     : Signal
  branch   : Signal
  memRead  : Signal
  memtoReg : Signal
  aluOp    : AluCode
  memWrite : Signal
  aluSrc   : Signal
  regWrite : Signal
  deriving DecidableEq, Repr

/-- The four causes of a halt (spec/60_exceptions.md R150 to R154). The hardware records none of them: the names are
the spec's, for a model to tell them apart (R150, spec/92_eei_decisions.md D9), and no field of the state holds one. -/
inductive HaltCause where
  /-- R151: the pc is above 65535 or not a multiple of 4. -/
  | fetchAddress
  /-- R152: the opcode is in no row of the control table. -/
  | decode
  /-- R153: ALUOp is 7 and the funct is none of the eight. -/
  | funct
  /-- R154: the address of a load or a store is not a multiple of 4. -/
  | memAlign
  deriving DecidableEq, Repr

/-- One row of spec/opcode_table.json: a word `w` is of the row iff `w &&& mask = pattern`. -/
structure OpcodeRow where
  mnemonic : String
  pattern  : Word
  mask     : Word
  deriving DecidableEq, Repr

end Sys2Proof
end

