-- ==== Sys2Proof/WellFormed.lean ====
section
/-!
DEFINITION. What is well-formed.

The operands of an `Instr` are bit vectors of exactly their field's width ("indices are always 5-bit fields, inherently
in range", spec/40_datapath_units.md R92), so no operand can be out of range and no check on one is left to make. What
the spec does leave to check is the CONTROL ROW an instruction runs under: CTRL is a parameter (spec/00_scope.md R9),
and the units leave four combinations of signals without a behaviour or unreachable. The checks here are those four,
and an instruction is well-formed under a control table when its row passes them.
-/

namespace Sys2Proof

/-- R98 (U2): the unit performs at most one of a read and a write. -/
def Control.oneAccess (c : Control) : Bool :=
  !(c.memRead = .one && c.memWrite = .one)

/-- R99 (U4): a row that writes back the memory output makes a read. -/
def Control.writeBackIsRead (c : Control) : Bool :=
  !(c.regWrite = .one && c.memtoReg = .one && c.memRead ≠ .one)

/-- R103: a row does not branch and jump at once. -/
def Control.oneTransfer (c : Control) : Bool :=
  !(c.branch = .one && c.jump = .one)

/-- U5 (spec/93_implementation_defined.md): a row that writes a register says which field names it. -/
def Control.destinationGiven (c : Control) : Bool :=
  !(c.regWrite = .one && c.regDst = .dontCare)

/-- A control row the units give a defined behaviour for, with nothing of R98, R99, R103 or U5 in it. -/
def Control.wellFormed (c : Control) : Bool :=
  c.oneAccess && c.writeBackIsRead && c.oneTransfer && c.destinationGiven

/-- The row of the control table that an instruction runs under (R66, R90). -/
def Instr.opcode : Instr → Opcode
  | .add _ _ _ => .rType
  | .sub _ _ _ => .rType
  | .slt _ _ _ => .rType
  | .sltu _ _ _ => .rType
  | .and _ _ _ => .rType
  | .or _ _ _ => .rType
  | .shift _ _ _ => .rType
  | .nor _ _ _ => .rType
  | .addi _ _ _ => .addi
  | .andi _ _ _ => .andi
  | .ori _ _ _ => .ori
  | .slti _ _ _ => .slti
  | .sltiu _ _ _ => .sltiu
  | .lui _ _ _ => .lui
  | .lw _ _ _ => .lw
  | .sw _ _ _ => .sw
  | .beq _ _ _ => .beq
  | .bge _ _ _ => .bge
  | .j _ => .j

/-- An instruction is well-formed under a control table when its row is. -/
def Instr.wellFormed (table : Opcode → Control) (i : Instr) : Bool :=
  (table i.opcode).wellFormed

end Sys2Proof
end

