-- ==== Sys2Proof/Decode.lean ====
section
/-!
DEFINITION. The Instruction Partition unit, the opcode and funct maps, the decoder and the encoder
(spec/30_encoding.md R60 to R73, spec/40_datapath_units.md R87).

An instruction is one 32-bit word (R60). The memory is made of words and the hardware has no byte order (R45), so the
decoder reads a word, not a list of bytes; it is total, and rejects a word by the name of the halt it causes.
-/

namespace Sys2Proof

/-- The seven fields, cut out by position, the same for every word (R61, R87). -/
def partition (w : Word) : Fields where
  opcode := w.extractLsb' 26 6
  rs     := w.extractLsb' 21 5
  rt     := w.extractLsb' 16 5
  rd     := w.extractLsb' 11 5
  funct  := w.extractLsb' 0 6
  imm    := w.extractLsb' 0 16
  target := w.extractLsb' 0 26

/-- The opcode map (R66), from the row to its code. -/
def Opcode.code : Opcode → Code6
  | .rType => 0x00
  | .bge   => 0x01
  | .j     => 0x02
  | .beq   => 0x04
  | .addi  => 0x08
  | .slti  => 0x0a
  | .sltiu => 0x0b
  | .andi  => 0x0c
  | .ori   => 0x0d
  | .lui   => 0x0f
  | .lw    => 0x23
  | .sw    => 0x2b

/-- The opcode map (R66), from the code: the other 52 codes have no row. -/
def lookupOpcode (v : Code6) : Option Opcode :=
  match v with
  | 0x00#6 => some .rType
  | 0x01#6 => some .bge
  | 0x02#6 => some .j
  | 0x04#6 => some .beq
  | 0x08#6 => some .addi
  | 0x0a#6 => some .slti
  | 0x0b#6 => some .sltiu
  | 0x0c#6 => some .andi
  | 0x0d#6 => some .ori
  | 0x0f#6 => some .lui
  | 0x23#6 => some .lw
  | 0x2b#6 => some .sw
  | _ => none

/-- The funct map (R67), from the operation to its code. -/
def Funct.code : Funct → Code6
  | .add   => 32
  | .sub   => 34
  | .slt   => 42
  | .sltu  => 43
  | .and   => 36
  | .or    => 37
  | .shift => 4
  | .nor   => 39

/-- The funct map (R67), from the code: the other 56 codes have no operation. -/
def lookupFunct (v : Code6) : Option Funct :=
  match v with
  | 32#6 => some .add
  | 34#6 => some .sub
  | 42#6 => some .slt
  | 43#6 => some .sltu
  | 36#6 => some .and
  | 37#6 => some .or
  | 4#6  => some .shift
  | 39#6 => some .nor
  | _ => none

/-- The R-type instruction of an operation. -/
def rTypeInstr (fn : Funct) (rs rt rd : RegIdx) : Instr :=
  match fn with
  | .add   => .add rs rt rd
  | .sub   => .sub rs rt rd
  | .slt   => .slt rs rt rd
  | .sltu  => .sltu rs rt rd
  | .and   => .and rs rt rd
  | .or    => .or rs rt rd
  | .shift => .shift rs rt rd
  | .nor   => .nor rs rt rd

/-- The second level of the decoder (R65): under opcode 0x00 the funct chooses; any other supported opcode "alone
identifies the instruction". -/
def decodeRow (op : Opcode) (f : Fields) : Except HaltCause Instr :=
  match op with
  | .rType =>
    match lookupFunct f.funct with
    | none => .error .funct
    | some fn => .ok (rTypeInstr fn f.rs f.rt f.rd)
  | .addi  => .ok (.addi f.rs f.rt f.imm)
  | .andi  => .ok (.andi f.rs f.rt f.imm)
  | .ori   => .ok (.ori f.rs f.rt f.imm)
  | .slti  => .ok (.slti f.rs f.rt f.imm)
  | .sltiu => .ok (.sltiu f.rs f.rt f.imm)
  | .lui   => .ok (.lui f.rs f.rt f.imm)
  | .lw    => .ok (.lw f.rs f.rt f.imm)
  | .sw    => .ok (.sw f.rs f.rt f.imm)
  | .beq   => .ok (.beq f.rs f.rt f.imm)
  | .bge   => .ok (.bge f.rs f.rt f.imm)
  | .j     => .ok (.j f.target)

/-- The two-level decoder (R65): the opcode map, then `decodeRow`. No other bit takes part in choosing the instruction, and
a word that is in neither map is rejected by the halt it causes (R68, R152, R153). -/
def decode (w : Word) : Except HaltCause Instr :=
  match lookupOpcode (partition w).opcode with
  | none => .error .decode
  | some op => decodeRow op (partition w)

/-- R73, R format, for opcode 0x00; bits 10:6 are written as 0 (R71). -/
def wordR (fn : Funct) (rs rt rd : RegIdx) : Word :=
  (Opcode.rType.code.setWidth 32 <<< 26) ||| (rs.setWidth 32 <<< 21) ||| (rt.setWidth 32 <<< 16)
    ||| (rd.setWidth 32 <<< 11) ||| fn.code.setWidth 32

/-- R73, I format. -/
def wordI (op : Opcode) (rs rt : RegIdx) (imm : Imm16) : Word :=
  (op.code.setWidth 32 <<< 26) ||| (rs.setWidth 32 <<< 21) ||| (rt.setWidth 32 <<< 16) ||| imm.setWidth 32

/-- R73, J format. -/
def wordJ (target : Target26) : Word :=
  (Opcode.j.code.setWidth 32 <<< 26) ||| target.setWidth 32

/-- The word of an instruction (R73). -/
def encode : Instr → Word
  | .add rs rt rd    => wordR .add rs rt rd
  | .sub rs rt rd    => wordR .sub rs rt rd
  | .slt rs rt rd    => wordR .slt rs rt rd
  | .sltu rs rt rd   => wordR .sltu rs rt rd
  | .and rs rt rd    => wordR .and rs rt rd
  | .or rs rt rd     => wordR .or rs rt rd
  | .shift rs rt rd  => wordR .shift rs rt rd
  | .nor rs rt rd    => wordR .nor rs rt rd
  | .addi rs rt imm  => wordI .addi rs rt imm
  | .andi rs rt imm  => wordI .andi rs rt imm
  | .ori rs rt imm   => wordI .ori rs rt imm
  | .slti rs rt imm  => wordI .slti rs rt imm
  | .sltiu rs rt imm => wordI .sltiu rs rt imm
  | .lui rs rt imm   => wordI .lui rs rt imm
  | .lw rs rt imm    => wordI .lw rs rt imm
  | .sw rs rt imm    => wordI .sw rs rt imm
  | .beq rs rt imm   => wordI .beq rs rt imm
  | .bge rs rt imm   => wordI .bge rs rt imm
  | .j target        => wordJ target

/-- The bits of a word that its instruction's encoding fixes or uses: all but bits 10:6 of an R-type word (R62, R69).
Every word that decodes to an instruction has that instruction's word in these bits. -/
def Instr.encodedBits (i : Instr) : Word :=
  match i.opcode with
  | .rType => 0xFFFFF83F
  | .addi | .andi | .ori | .slti | .sltiu | .beq | .lw | .lui | .sw | .bge | .j => 0xFFFFFFFF

/-- The mnemonic of an instruction, as spec/opcode_table.json spells it. -/
def Instr.mnemonic : Instr → String
  | .add _ _ _   => "add"
  | .sub _ _ _   => "sub"
  | .slt _ _ _   => "slt"
  | .sltu _ _ _  => "sltu"
  | .and _ _ _   => "and"
  | .or _ _ _    => "or"
  | .shift _ _ _ => "shift"
  | .nor _ _ _   => "nor"
  | .addi _ _ _  => "addi"
  | .andi _ _ _  => "andi"
  | .ori _ _ _   => "ori"
  | .slti _ _ _  => "slti"
  | .sltiu _ _ _ => "sltiu"
  | .lui _ _ _   => "lui"
  | .lw _ _ _    => "lw"
  | .sw _ _ _    => "sw"
  | .beq _ _ _   => "beq"
  | .bge _ _ _   => "bge"
  | .j _         => "j"

/-- spec/opcode_table.json, row for row: mnemonic, match, mask. The decoder does not read it; that the two agree is a
statement of its own. -/
def opcodeTable : List OpcodeRow :=
  [⟨"add",   0x00000020, 0xFC00003F⟩,
   ⟨"sub",   0x00000022, 0xFC00003F⟩,
   ⟨"slt",   0x0000002A, 0xFC00003F⟩,
   ⟨"sltu",  0x0000002B, 0xFC00003F⟩,
   ⟨"and",   0x00000024, 0xFC00003F⟩,
   ⟨"or",    0x00000025, 0xFC00003F⟩,
   ⟨"shift", 0x00000004, 0xFC00003F⟩,
   ⟨"nor",   0x00000027, 0xFC00003F⟩,
   ⟨"addi",  0x20000000, 0xFC000000⟩,
   ⟨"andi",  0x30000000, 0xFC000000⟩] ++
  [⟨"ori",   0x34000000, 0xFC000000⟩,
   ⟨"slti",  0x28000000, 0xFC000000⟩,
   ⟨"sltiu", 0x2C000000, 0xFC000000⟩,
   ⟨"lui",   0x3C000000, 0xFC000000⟩,
   ⟨"lw",    0x8C000000, 0xFC000000⟩,
   ⟨"sw",    0xAC000000, 0xFC000000⟩,
   ⟨"beq",   0x10000000, 0xFC000000⟩,
   ⟨"bge",   0x04000000, 0xFC000000⟩,
   ⟨"j",     0x08000000, 0xFC000000⟩]

/-- The mnemonics of the table's rows that a word is of. -/
def tableMnemonics (w : Word) : List String :=
  (opcodeTable.filter fun r => w &&& r.mask = r.pattern).map (·.mnemonic)

/-- The instruction the decoder reads from the bits `w`, numbered as spec/opcode_table.json numbers them, of a row of
`nbits` bits: every instruction is one word (R60), so the bits are the word's and those above `nbits` are 0. -/
def decodeTableWord (nbits w : Nat) : Option Instr :=
  match decode (BitVec.ofNat 32 (w % 2 ^ nbits)) with
  | .ok i => some i
  | .error _ => none

end Sys2Proof
end

