-- ==== Sys2Proof/Config.lean ====
section
/-!
DEFINITION. The parameters that the source leaves open (spec/00_scope.md R9), as a record.

Each has the alternatives the spec writes out. The values the model runs with are `Machine.config`
(Machine/Parameters.lean), the spec's defaults. The two other parameters of R9 are no field here: INIT is the state a
run is launched in (Machine/HostInterface.lean), and DATA_RANGE has the one value the spec gives it, the fault of
spec/20_memory.md R42 and R43.
-/

namespace Sys2Proof

/-- ALU_MAP: which operation the selectors 2, 3 and 4 perform (spec/92_eei_decisions.md D1). -/
inductive AluMap where
  /-- 2 = signed less-than, 3 = unsigned less-than, 4 = and: the spec's table, R81. -/
  | intent
  /-- 2 = unsigned less-than, 3 = and, 4 = and: the source's §4.1 read literally (spec/90_conflicts.md C1). -/
  | literal
  deriving DecidableEq, Repr

/-- CTRL: which control row `beq`, and which `bge`, has (spec/92_eei_decisions.md D2). -/
inductive BranchRow where
  /-- The source's §4.4 row, value for value: the spec's table, R90. -/
  | sourceTable
  /-- The row under which the instruction does what its name says (spec/90_conflicts.md C2, C3). -/
  | asNamed
  deriving DecidableEq, Repr

/-- The parameters that have more than one value in the spec. -/
structure Config where
  aluMap   : AluMap
  beqRow   : BranchRow
  bgeRow   : BranchRow
  /-- MEM_BYTES: the size of the memory in bytes (spec/92_eei_decisions.md D5). -/
  memBytes : Nat
  deriving DecidableEq, Repr

end Sys2Proof
end

