-- ==== Sys2Proof/Machine/Parameters.lean ====
section
/-!
DEFINITION. The parameter values the model runs with, and the highest address a fetch accepts.
-/

namespace Sys2Proof.Machine

/-- The spec's default for each parameter (spec/00_scope.md R9): ALU_MAP is INTENT, CTRL is the source's table taken
literally, MEM_BYTES is 65536. DESIGN CHOICE of the spec, unsafe for the six instructions that depend on the first two
(notes/assumptions/2.md, 3.md) and safe for the third (notes/assumptions/4.md). -/
def config : Config where
  aluMap := .intent
  beqRow := .sourceTable
  bgeRow := .sourceTable
  memBytes := 65536

/-- The number of 32-bit words in the memory: the word indices are 0 to this number less one (R33). -/
def memWords : Nat := config.memBytes / 4

/-- "signal halt (do not fetch) if PC > 65535": the bound the source gives the fetch, by number (R8, R41). -/
def maxFetchAddress : Nat := 65535

end Sys2Proof.Machine
end

