-- ==== Sys2Proof/Machine/State.lean ====
section
/-!
DEFINITION. The state of the machine: the four things of spec/10_state.md R20 and nothing else, the ways a step can end
other than in a next state, and the state after reset.
-/

namespace Sys2Proof.Machine

/-- The memory: one array of 32-bit words, each reached by its word index (R33, R40), held as the list of the words that
differ from what an unlisted index reads as. Its cells are words and not bytes, because R45 says a model must not
introduce a byte layout: the word is the smallest unit the hardware can address (notes/assumptions/6.md). -/
abbrev Memory := List (Nat × Word)

/-- What a word index reads as where the memory lists nothing. DESIGN CHOICE (notes/assumptions/5.md): the spec gives no
value, since the host supplies every word (R34). With it a list stands for one image of all the words, and every image
has its list, so no launch state is shut out. -/
def unlistedWord : Word := 0

/-- The words from index `lo` on are in canonical form: indices strictly rising, each below the memory's size, no word
listed that an unlisted index would read as. -/
def Memory.wfFrom (lo : Nat) : Memory → Bool
  | [] => true
  | (k, v) :: rest => decide (lo ≤ k) && decide (k < memWords) && decide (v ≠ unlistedWord) && Memory.wfFrom (k + 1) rest

/-- A memory in canonical form: two of them that read alike are the same list. -/
def Memory.wf (m : Memory) : Bool := Memory.wfFrom 0 m

/-- The orchestrator's two states (R20, R104). -/
inductive RunState where
  | running | halted
  deriving DecidableEq, Repr

/-- The whole persistent state (R20). No flag, control register, pending event or counter exists (R29 to R32): Zero, the
control signals and the values between the units are made afresh in each step and are gone when it ends. -/
structure State where
  /-- `x[0]` to `x[31]`, all alike, `x[0]` included (R21, R22). -/
  regs : Vector Word 32
  /-- The byte address of the instruction that the next step runs; a full 32-bit register (R26, R28). -/
  pc   : Word
  /-- `Mem`, code and data alike (R33). -/
  mem  : Memory
  /-- RUNNING or HALTED, kept as state so that "HALTED is terminal" can be said (R20, spec/92_eei_decisions.md D17). -/
  run  : RunState
  deriving DecidableEq, Repr

/-- Why a step has no next state. A halt is none of these: it is a next state, in which `run` is HALTED (R155). -/
inductive Fault where
  /-- R42, R43, R157, D5: `lw` or `sw` at an aligned address beyond the memory, the one reachable case for which the source
  defines no behaviour. Raised by the two memory primitives. Safe: nothing about what the hardware then does can be proved. -/
  | dataAddressRange
  /-- R99, U4, D16: the memory output is written back and no read was made. Raised by the Register Write unit; no row of the
  control table leads there. Safe, for the same reason. -/
  | memdataUndefined
  /-- R105, R159, D8: a step was issued to a HALTED machine, which has no step. Raised by `step` alone. Safe: a stuck state,
  of which the source says that the caller must not reach it. -/
  | noStepWhenHalted
  deriving DecidableEq, Repr

/-- Why the model gives an instruction no meaning. -/
inductive Refusal where
  /-- Raised by an arm of `exec` for an instruction that has no meaning yet; no arm does. Safe. -/
  | notModelled (mnemonic : String)
  deriving DecidableEq, Repr

/-- What one stage of a step can do (R104): go on with a value, raise a halt, or raise the spec's own fault. After either
of the last two no later stage runs. -/
inductive Stage (α : Type) where
  | done (a : α)
  | halt (c : HaltCause)
  | fault (r : Fault)
  deriving DecidableEq, Repr

/-- The state right after reset. The spec has no reset: it fixes `run` alone, and the host supplies the rest before the
first step (R34, R170). Registers and pc at 0 are a DESIGN CHOICE (notes/assumptions/1.md); memory lists nothing. -/
def State.reset : State where
  regs := Vector.replicate 32 0
  pc := 0
  mem := []
  run := .running

end Sys2Proof.Machine
end

