-- ==== Sys2Proof/Machine/Ops.lean ====
section
/-!
DEFINITION. The named operations over registers, pc and memory, the memory primitives, and taking a halt.

Registers are read and written here alone, and so is memory.
-/

namespace Sys2Proof.Machine

/-! ### Registers and pc -/

/-- `x[i]` (R11, R23): an index is 5 bits, so the read cannot fail. -/
def State.reg (s : State) (i : RegIdx) : Word :=
  s.regs[i.toNat]'(by have := i.isLt; omega)

/-- `x[i] <- v` (R11, R24). Register 0 is not special (R22). -/
def State.setReg (s : State) (i : RegIdx) (v : Word) : State :=
  { s with regs := s.regs.set i.toNat v (by have := i.isLt; omega) }

/-- `pc <- t` (R11). -/
def State.setPc (s : State) (t : Word) : State := { s with pc := t }

/-- The state with another memory. -/
def State.setMem (s : State) (m : Memory) : State := { s with mem := m }

/-- The state with the orchestrator in another state. -/
def State.setRun (s : State) (r : RunState) : State := { s with run := r }

/-! ### The word array -/

/-- `Mem[k]` (R11). -/
def Memory.read : Memory → Nat → Word
  | [], _ => unlistedWord
  | (j, w) :: rest, k => if j = k then w else Memory.read rest k

/-- `Mem[k] <- v` (R11), in canonical form: writing what an unlisted index reads as removes the entry. -/
def Memory.write : Memory → Nat → Word → Memory
  | [], k, v => if v = unlistedWord then [] else [(k, v)]
  | (j, w) :: rest, k, v =>
    if j < k then (j, w) :: Memory.write rest k v
    else
      let tail := if j = k then rest else (j, w) :: rest
      if v = unlistedWord then tail else (k, v) :: tail

/-- "byte address must be a multiple of 4": bits 1:0 are zero (R40, R46). -/
def isAligned (a : Word) : Bool := a.extractLsb' 0 2 = 0

/-- "Indexed by (byte-address >> 2)" (R33, R40). -/
def wordIndex (a : Word) : Nat := (a >>> 2).toNat

/-- An aligned data address inside the memory: `addr <= MEM_BYTES - 1` (R42, R43). -/
def inMemory (a : Word) : Bool := a.toNat < config.memBytes

/-- The condition under which a fetch does not halt (R41): not above 65535, and aligned. -/
def isFetchable (a : Word) : Bool := decide (a.toNat ≤ maxFetchAddress) && isAligned a

/-! ### Stages -/

/-- Go on to the next stage, unless this one ended the step: "propagating the first halt/failure encountered" (R105). -/
def Stage.bind {α β : Type} (x : Stage α) (f : α → Stage β) : Stage β :=
  match x with
  | .done a => f a
  | .halt c => .halt c
  | .fault r => .fault r

/-! ### The three memory primitives -/

/-- `Fetch(addr)` (R41, R86): reads a word, changes nothing. -/
def fetch (m : Memory) (a : Word) : Stage Word :=
  if isFetchable a then .done (m.read (wordIndex a)) else .halt .fetchAddress

/-- `MemRead(addr, 4)` (R42): alignment first, then range. The range fault is a DESIGN CHOICE of the spec, D5
(notes/assumptions/4.md). -/
def memRead (m : Memory) (a : Word) : Stage Word :=
  if isAligned a then
    if inMemory a then .done (m.read (wordIndex a)) else .fault .dataAddressRange
  else .halt .memAlign

/-- `MemWrite(addr, 4, v)` (R43): alignment first, then range; all 32 bits of one word are replaced. -/
def memWrite (m : Memory) (a v : Word) : Stage Memory :=
  if isAligned a then
    if inMemory a then .done (m.write (wordIndex a) v) else .fault .dataAddressRange
  else .halt .memAlign

/-! ### Taking a halt

The one exceptional mechanism (R150). There is no return from it (R159), so no operation stands beside it. -/

/-- What a halt does (R155): "Nothing is saved, no handler is entered, no vector is consulted, no mode changes." `run` is
HALTED, and `x`, `pc` and `Mem` are as they were before the step began. The cause is recorded nowhere (R150,
notes/assumptions/12.md). -/
def takeHalt (_cause : HaltCause) (s : State) : Host.Outcome State Fault Refusal :=
  .next (s.setRun .halted)

/-- How a step begun in `s` ends (R104, R105, R157): with the state its last stage gives, with a halt taken in `s`, or with
the spec's fault. -/
def endStep (s : State) (x : Stage State) : Host.Outcome State Fault Refusal :=
  match x with
  | .done t => .next t
  | .halt c => takeHalt c s
  | .fault r => .fault r

end Sys2Proof.Machine
end

