-- ==== Sys2Proof/Machine/Operands.lean ====
section
/-!
DEFINITION. Where a step's operands come from: the Control Decoder and its table, Sign Extend, the choice of the ALU's
operands and selector, and the choice of the register written (spec/40_datapath_units.md §4 to §7 and §9).
-/

namespace Sys2Proof.Machine

/-! ### Control signals -/

/-- A signal "is set" when its value is 1; X is not asserted, and selects as 0 (R11, R89).
DESIGN CHOICE of the spec, D3 (notes/assumptions/10.md). -/
def isAsserted (v : Signal) : Bool := v = .one

/-- The control table, CTRL (R90), under a configuration: the source's §4.4 table, and for `beq` and `bge` the other row
that spec/90_conflicts.md C2 and C3 write out. DESIGN CHOICE of the spec, D2 (notes/assumptions/3.md). -/
def controlRow (cfg : Config) (op : Opcode) : Control :=
  match op with
  | .rType => ⟨.one,      .zero, .zero,     .zero,     .zero,     .c7, .zero, .zero,     .one⟩
  | .addi  => ⟨.zero,     .zero, .zero,     .zero,     .zero,     .c0, .zero, .one,      .one⟩
  | .andi  => ⟨.zero,     .zero, .zero,     .zero,     .zero,     .c4, .zero, .one,      .one⟩
  | .ori   => ⟨.zero,     .zero, .zero,     .zero,     .zero,     .c5, .zero, .one,      .one⟩
  | .slti  => ⟨.zero,     .zero, .zero,     .zero,     .zero,     .c2, .zero, .one,      .one⟩
  | .sltiu => ⟨.zero,     .zero, .zero,     .zero,     .zero,     .c3, .zero, .one,      .one⟩
  | .beq   =>
    match cfg.beqRow with
    | .sourceTable => ⟨.dontCare, .zero, .one, .zero, .dontCare, .c0, .zero, .one,  .zero⟩
    | .asNamed     => ⟨.dontCare, .zero, .one, .zero, .dontCare, .c1, .zero, .zero, .zero⟩
  | .lw    => ⟨.zero,     .zero, .zero,     .one,      .one,      .c0, .zero, .one,      .one⟩
  | .lui   => ⟨.zero,     .zero, .zero,     .zero,     .zero,     .c6, .zero, .one,      .one⟩
  | .sw    => ⟨.dontCare, .zero, .zero,     .zero,     .dontCare, .c0, .one,  .one,      .zero⟩
  | .bge   =>
    match cfg.bgeRow with
    | .sourceTable => ⟨.zero, .zero, .one, .zero, .zero, .c6, .zero, .one,  .zero⟩
    | .asNamed     => ⟨.zero, .zero, .one, .zero, .zero, .c2, .zero, .zero, .zero⟩
  | .j     => ⟨.dontCare, .one,  .dontCare, .dontCare, .dontCare, .c0, .zero, .dontCare, .zero⟩

/-- The control table the model runs with. -/
def controlTable (op : Opcode) : Control := controlRow config op

/-- The Control Decoder (R90): reads the opcode only; "decode failure for any opcode not in the supported instruction set". -/
def controlDecoder (opcode : Code6) : Stage Control :=
  match lookupOpcode opcode with
  | some op => .done (controlTable op)
  | none => .halt .decode

/-! ### Sign Extend -/

/-- `sext_32` (R93): "if bit 15 is set, OR with 0xFFFF0000; else mask with 0x0000FFFF". -/
def signExtend (v : Imm16) : Word :=
  if v.getLsbD 15 then v.setWidth 32 ||| 0xFFFF0000 else v.setWidth 32 &&& 0x0000FFFF

/-! ### The ALU's operand B and selector -/

/-- Operand B: the extended immediate when ALUSrc is asserted, else the second register read (R94). -/
def operandB (c : Control) (data2 extended : Word) : Word :=
  if isAsserted c.aluSrc then extended else data2

/-- The selector of each R-type operation (R67, R95). DESIGN CHOICE of the spec for `shift` and `nor`, D13
(notes/assumptions/9.md). -/
def functSelector : Funct → AluCode
  | .add   => .c0
  | .sub   => .c1
  | .slt   => .c2
  | .sltu  => .c3
  | .and   => .c4
  | .or    => .c5
  | .shift => .c6
  | .nor   => .c7

/-- The ALU selector (R95): ALUOp itself, but for ALUOp = 7, which means "derive from funct field"; any other funct then
halts. The test is on ALUOp, not on the opcode. -/
def resolveSelector (aluOp : AluCode) (funct : Code6) : Stage AluCode :=
  match aluOp with
  | .c7 =>
    match lookupFunct funct with
    | some fn => .done (functSelector fn)
    | none => .halt .funct
  | .c0 => .done .c0
  | .c1 => .done .c1
  | .c2 => .done .c2
  | .c3 => .done .c3
  | .c4 => .done .c4
  | .c5 => .done .c5
  | .c6 => .done .c6

/-! ### The register written -/

/-- The destination index: `rd` when RegDst is asserted, else `rt` (R100). -/
def destination (c : Control) (f : Fields) : RegIdx :=
  if isAsserted c.regDst then f.rd else f.rt

/-- The register that an instruction writes when its step completes (R24). -/
def destinationOf : Instr → Option RegIdx
  | .add _ _ rd => some rd
  | .sub _ _ rd => some rd
  | .slt _ _ rd => some rd
  | .sltu _ _ rd => some rd
  | .and _ _ rd => some rd
  | .or _ _ rd => some rd
  | .shift _ _ rd => some rd
  | .nor _ _ rd => some rd
  | .addi _ rt _ => some rt
  | .andi _ rt _ => some rt
  | .ori _ rt _ => some rt
  | .slti _ rt _ => some rt
  | .sltiu _ rt _ => some rt
  | .lui _ rt _ => some rt
  | .lw _ rt _ => some rt
  | .sw _ _ _ => none
  | .beq _ _ _ => none
  | .bge _ _ _ => none
  | .j _ => none

/-- The one addressing mode: base register plus sign-extended displacement, modulo 2^32 (R130). -/
def effectiveAddress (s : State) (rs : RegIdx) (imm : Imm16) : Word :=
  s.reg rs + signExtend imm

end Sys2Proof.Machine
end

