-- ==== Sys2Proof/Machine/Flags.lean ====
section
/-!
DEFINITION. The ALU: its result and its one flag, Zero (spec/40_datapath_units.md §1).

Zero is the only flag of the hardware, and no state: it is computed in each step, read by PC Update in the same step, and
gone when the step ends (R29). There is no carry, overflow, sign or parity.
-/

namespace Sys2Proof.Machine

/-- ALU_MAP: the operation a selector performs (R81; the other value is the one of spec/90_conflicts.md C1).
DESIGN CHOICE of the spec, D1 and D11 (notes/assumptions/2.md). -/
def aluFunction (map : AluMap) (sel : AluCode) : AluFn :=
  match sel with
  | .c0 => .add
  | .c1 => .subtract
  | .c2 =>
    match map with
    | .intent => .lessSigned
    | .literal => .lessUnsigned
  | .c3 =>
    match map with
    | .intent => .lessUnsigned
    | .literal => .and
  | .c4 => .and
  | .c5 => .or
  | .c6 => .shift16
  | .c7 => .not

/-- A comparison's result as a word: 1 if true, else 0 (R81). -/
def boolWord (b : Bool) : Word := if b then 1 else 0

/-- The result of each operation (R81, R83 to R85). Sums and differences wrap; the two comparisons are exact, on the
operands as signed and as unsigned numbers; the shift does not use A and the complement does not use B. -/
def aluEval (fn : AluFn) (a b : Word) : Word :=
  match fn with
  | .add => a + b
  | .subtract => a - b
  | .lessSigned => boolWord (decide (a.toInt < b.toInt))
  | .lessUnsigned => boolWord (decide (a.toNat < b.toNat))
  | .and => a &&& b
  | .or => a ||| b
  | .shift16 => b <<< 16
  | .not => ~~~a

/-- `result` of `ALU(A, B, sel)` (R80). -/
def aluResult (a b : Word) (sel : AluCode) : Word := aluEval (aluFunction config.aluMap sel) a b

/-- "Zero flag = (result == 0), computed unconditionally after the selected operation" (R82). -/
def zeroFlag (result : Word) : Bool := result = 0

/-- `ALU(A, B, sel) = (result, zero)` (R80): no state, no side effect, no halt. -/
def alu (a b : Word) (sel : AluCode) : Word × Bool := (aluResult a b sel, zeroFlag (aluResult a b sel))

end Sys2Proof.Machine
end

