-- ==== Sys2Proof/Machine/Datapath.lean ====
section
/-!
DEFINITION. The units of the datapath after decoding, and the stages 4 to 9 of a step that wire them
(spec/40_datapath_units.md R92 to R104). Every instruction's meaning is these stages under its control row.

The units are written for any Control Signal Set, so what the spec says of rows that the table does not hold (both memory
flags, branch and jump at once, a write-back with no read: R98, R99, R103) is modelled too (notes/assumptions/13.md).
-/

namespace Sys2Proof.Machine

/-- The ALU-operations wrapper (R94 to R96): operand B by ALUSrc, the selector by ALUOp and funct, then the ALU. -/
def aluOperations (c : Control) (funct : Code6) (data1 data2 extended : Word) : Stage (Word × Bool) :=
  (resolveSelector c.aluOp funct).bind fun sel => .done (alu data1 (operandB c data2 extended) sel)

/-- Memory Access, the read (R97): `memdata`, or none where no read is made (R99). -/
def loadStage (c : Control) (address : Word) (m : Memory) : Stage (Option Word) :=
  if isAsserted c.memRead then (memRead m address).bind fun w => .done (some w) else .done none

/-- Memory Access, the write (R97): stores `data2`, the register `x[rt]`. DESIGN CHOICE of the spec, D4
(notes/assumptions/9.md). -/
def storeStage (c : Control) (address data2 : Word) (m : Memory) : Stage Memory :=
  if isAsserted c.memWrite then memWrite m address data2 else .done m

/-- Memory Access (R97): the read, then the write, each with its own checks. Both at once is R98's "read evaluated, then
write evaluated". With neither flag the ALU result is no address and nothing halts. -/
def memoryAccess (c : Control) (address data2 : Word) (m : Memory) : Stage (Option Word × Memory) :=
  (loadStage c address m).bind fun memdata =>
    (storeStage c address data2 m).bind fun m' => .done (memdata, m')

/-- Register Write (R100): the loaded word or the ALU result, into `rd` or `rt`. "No-op if RegWrite is unset." A write-back
of the memory output when no read was made is the spec's fault, never a value (R99). -/
def registerWrite (c : Control) (f : Fields) (memdata : Option Word) (result : Word) (s : State) : Stage State :=
  if isAsserted c.regWrite then
    if isAsserted c.memtoReg then
      match memdata with
      | some w => .done (s.setReg (destination c f) w)
      | none => .fault .memdataUndefined
    else .done (s.setReg (destination c f) result)
  else .done s

/-- The jump address (R101, R102): the target shifted left by 2, and the top four bits of the incremented pc. -/
def jumpAddress (pc : Word) (target : Target26) : Word :=
  (target.setWidth 32 <<< 2) ||| ((pc + 4#32) &&& 0xF0000000)

/-- The branch address (R102): the incremented pc plus four times the signed immediate, modulo 2^32. -/
def branchAddress (pc extended : Word) : Word := pc + 4#32 + (extended <<< 2)

/-- PC Update (R101, R102): 4 on, then the branch, then the jump, which wins if both are asserted (R103). -/
def pcUpdate (c : Control) (target : Target26) (extended : Word) (zero : Bool) (pc : Word) : Word :=
  if isAsserted c.jump then jumpAddress pc target
  else if isAsserted c.branch && zero then branchAddress pc extended
  else pc + 4#32

/-- The stages 4 to 9 of the step (R104): Register Read, Sign Extend, ALU operations, Memory Access, Register Write, PC
Update. Both registers are read before anything is written (R25, R175), and every stage that can halt comes before the
first write that counts (R155). -/
def runStages (c : Control) (f : Fields) (s : State) : Stage State :=
  let data1 := s.reg f.rs
  let data2 := s.reg f.rt
  let extended := signExtend f.imm
  (aluOperations c f.funct data1 data2 extended).bind fun out =>
    (memoryAccess c out.1 data2 s.mem).bind fun acc =>
      (registerWrite c f acc.1 out.1 (s.setMem acc.2)).bind fun t =>
        .done (t.setPc (pcUpdate c f.target extended out.2 s.pc))

/-- An instruction of the opcode `op`, run on the fields `f`: its stages under its control row, and the step's end. -/
def runInstr (op : Opcode) (f : Fields) (s : State) : Host.Outcome State Fault Refusal :=
  endStep s (runStages (controlTable op) f s)

end Sys2Proof.Machine
end

