-- ==== Sys2Proof/Machine/ControlTransfer.lean ====
section
/-!
DEFINITION. The three control transfers (spec/44_control_transfer.md). They write no register and no memory, and there is
no delay slot. The two branches are what the control table makes them, not what their names suggest (D2).
-/

namespace Sys2Proof.Machine

/-- R140: `pc <- pc + 4 + (sext_32(imm) << 2)` if `x[rs] + sext_32(imm)` is 0 modulo 2^32, else `pc <- pc + 4`;
`x[rt]` is read and discarded. -/
def execBeq (rs rt : RegIdx) (imm : Imm16) (s : State) : Host.Outcome State Fault Refusal :=
  runInstr .beq { rs := rs, rt := rt, imm := imm } s

/-- R141: Zero is true iff `imm` is 0, and then the offset is 0: `pc <- pc + 4` for every value of every field. -/
def execBge (rs rt : RegIdx) (imm : Imm16) (s : State) : Host.Outcome State Fault Refusal :=
  runInstr .bge { rs := rs, rt := rt, imm := imm } s

/-- R142: `pc <- (zext_32(target) << 2) | ((pc + 4) & 0xF0000000)`. The registers are read and the ALU runs, and nothing
uses what they give (R91). -/
def execJ (target : Target26) (s : State) : Host.Outcome State Fault Refusal :=
  runInstr .j { target := target } s

end Sys2Proof.Machine
end

