-- ==== Sys2Proof/Machine/Immediate.lean ====
section
/-!
DEFINITION. The six register-immediate instructions (spec/42_immediate.md); each then does `pc <- pc + 4`.
-/

namespace Sys2Proof.Machine

/-- R120: `x[rt] <- (x[rs] + sext_32(imm)) mod 2^32`; no overflow trap. -/
def execAddi (rs rt : RegIdx) (imm : Imm16) (s : State) : Host.Outcome State Fault Refusal :=
  runInstr .addi { rs := rs, rt := rt, imm := imm } s

/-- R121: `x[rt] <- x[rs] & sext_32(imm)`; the immediate is sign-extended. -/
def execAndi (rs rt : RegIdx) (imm : Imm16) (s : State) : Host.Outcome State Fault Refusal :=
  runInstr .andi { rs := rs, rt := rt, imm := imm } s

/-- R122: `x[rt] <- x[rs] | sext_32(imm)`; the immediate is sign-extended. -/
def execOri (rs rt : RegIdx) (imm : Imm16) (s : State) : Host.Outcome State Fault Refusal :=
  runInstr .ori { rs := rs, rt := rt, imm := imm } s

/-- R123: `x[rt] <- 1 if signed(x[rs]) < signed(sext_32(imm)) else 0` (D1, D11). -/
def execSlti (rs rt : RegIdx) (imm : Imm16) (s : State) : Host.Outcome State Fault Refusal :=
  runInstr .slti { rs := rs, rt := rt, imm := imm } s

/-- R124: `x[rt] <- 1 if x[rs] < sext_32(imm) (both unsigned) else 0` (D1). -/
def execSltiu (rs rt : RegIdx) (imm : Imm16) (s : State) : Host.Outcome State Fault Refusal :=
  runInstr .sltiu { rs := rs, rt := rt, imm := imm } s

/-- R125: `x[rt] <- imm << 16`; `x[rs]` is read and discarded. -/
def execLui (rs rt : RegIdx) (imm : Imm16) (s : State) : Host.Outcome State Fault Refusal :=
  runInstr .lui { rs := rs, rt := rt, imm := imm } s

end Sys2Proof.Machine
end

