-- ==== Sys2Proof/Machine/LoadStore.lean ====
section
/-!
DEFINITION. The load and the store (spec/43_loadstore.md), at `ea = (x[rs] + sext_32(imm)) mod 2^32` (R130). Each then
does `pc <- pc + 4`. A misaligned `ea` halts (R154); an aligned one beyond the memory is the spec's fault (R157, D5).
-/

namespace Sys2Proof.Machine

/-- R131: `x[rt] <- Mem[ea >> 2]`. -/
def execLw (rs rt : RegIdx) (imm : Imm16) (s : State) : Host.Outcome State Fault Refusal :=
  runInstr .lw { rs := rs, rt := rt, imm := imm } s

/-- R132: `Mem[ea >> 2] <- x[rt]` (D4). -/
def execSw (rs rt : RegIdx) (imm : Imm16) (s : State) : Host.Outcome State Fault Refusal :=
  runInstr .sw { rs := rs, rt := rt, imm := imm } s

end Sys2Proof.Machine
end

