-- ==== Sys2Proof/Machine/RType.lean ====
section
/-!
DEFINITION. The eight register-register instructions (spec/41_rtype.md): opcode 0x00, the operation chosen by funct.
Each then does `pc <- pc + 4`. The effects in the docstrings are what the datapath's rules come to.
-/

namespace Sys2Proof.Machine

/-- R110: `x[rd] <- (x[rs] + x[rt]) mod 2^32`; no overflow trap. -/
def execAdd (rs rt rd : RegIdx) (s : State) : Host.Outcome State Fault Refusal :=
  runInstr .rType { rs := rs, rt := rt, rd := rd, funct := Funct.add.code } s

/-- R111: `x[rd] <- (x[rs] - x[rt]) mod 2^32`. -/
def execSub (rs rt rd : RegIdx) (s : State) : Host.Outcome State Fault Refusal :=
  runInstr .rType { rs := rs, rt := rt, rd := rd, funct := Funct.sub.code } s

/-- R112: `x[rd] <- 1 if signed(x[rs]) < signed(x[rt]) else 0` (D1, D11). -/
def execSlt (rs rt rd : RegIdx) (s : State) : Host.Outcome State Fault Refusal :=
  runInstr .rType { rs := rs, rt := rt, rd := rd, funct := Funct.slt.code } s

/-- R113: `x[rd] <- 1 if x[rs] < x[rt] (unsigned) else 0` (D1). -/
def execSltu (rs rt rd : RegIdx) (s : State) : Host.Outcome State Fault Refusal :=
  runInstr .rType { rs := rs, rt := rt, rd := rd, funct := Funct.sltu.code } s

/-- R114: `x[rd] <- x[rs] & x[rt]` (D1). -/
def execAnd (rs rt rd : RegIdx) (s : State) : Host.Outcome State Fault Refusal :=
  runInstr .rType { rs := rs, rt := rt, rd := rd, funct := Funct.and.code } s

/-- R115: `x[rd] <- x[rs] | x[rt]`. -/
def execOr (rs rt rd : RegIdx) (s : State) : Host.Outcome State Fault Refusal :=
  runInstr .rType { rs := rs, rt := rt, rd := rd, funct := Funct.or.code } s

/-- R116: `x[rd] <- (x[rt] << 16) mod 2^32`, the distance fixed; `x[rs]` is read and discarded (D13). -/
def execShift (rs rt rd : RegIdx) (s : State) : Host.Outcome State Fault Refusal :=
  runInstr .rType { rs := rs, rt := rt, rd := rd, funct := Funct.shift.code } s

/-- R117: `x[rd] <- ~x[rs]`: the complement of `x[rs]` alone; `x[rt]` is read and discarded (D13). -/
def execNor (rs rt rd : RegIdx) (s : State) : Host.Outcome State Fault Refusal :=
  runInstr .rType { rs := rs, rt := rt, rd := rd, funct := Funct.nor.code } s

end Sys2Proof.Machine
end

