-- ==== Sys2Proof/Machine/Step.lean ====
section
/-!
DEFINITION. One step of the machine: one attempted instruction, start to finish (spec/40_datapath_units.md R104, R105).
-/

namespace Sys2Proof.Machine

/-- One step. In a HALTED machine there is none (R105, R159, D8, notes/assumptions/11.md). In a RUNNING one: fetch the word at `pc`, decode it, and run
the instruction; a fetch or a decoding that fails takes its halt (R151 to R153). -/
def step (s : State) : Host.Outcome State Fault Refusal :=
  match s.run with
  | .halted => .fault .noStepWhenHalted
  | .running =>
    match fetch s.mem s.pc with
    | .fault r => .fault r
    | .halt c => takeHalt c s
    | .done w =>
      match decode w with
      | .error c => takeHalt c s
      | .ok i => exec i s

/-- The state in which the next step fetches the word `w` (of a table row of `nbits` bits): the word stands in the memory
where the pc points, for which the pc must be fetchable and the machine RUNNING. Where the pc cannot be fetched from, it
is put at 0. This stands for the host's placing of a program (R170 to R172, notes/assumptions/7.md). -/
def State.withFetchWord (s : State) (nbits w : Nat) : State :=
  let pc := if isFetchable s.pc then s.pc else 0
  { s with pc := pc, mem := s.mem.write (wordIndex pc) (BitVec.ofNat 32 (w % 2 ^ nbits)), run := .running }

end Sys2Proof.Machine
end

