-- ==== Sys2Proof/Machine/HostInterface.lean ====
section
/-!
DEFINITION. What the host may do to the machine (spec/70_reset_and_hazards.md R170 to R173): launch it, read and write its
arrays between steps, and issue steps until it halts or the host stops. `step` contains none of this: a host write is an
act of the host, between two steps and never within one (R171, notes/assumptions/8.md).
-/

namespace Sys2Proof.Machine

/-- The memory that holds a list of words from index `k` on. -/
def imageFrom (k : Nat) : List Word → Memory
  | [] => []
  | w :: rest => if w = unlistedWord then imageFrom (k + 1) rest else (k, w) :: imageFrom (k + 1) rest

/-- The launch (R170): "an initial memory image (array of 32-bit words), an initial register file (array of 32-bit words),
and an initial PC", and RUNNING. The image's words from 0 on; words beyond the memory's size have no place in it and are dropped (notes/assumptions/15.md). -/
def launch (regs : Vector Word 32) (pc : Word) (image : List Word) : State where
  regs := regs
  pc := pc
  mem := imageFrom 0 (image.take memWords)
  run := .running

/-- The host writes a register, by its index (R171). -/
def hostWriteReg (s : State) (i : RegIdx) (v : Word) : State := s.setReg i v

/-- The host writes a memory word, by its index (R171); beyond the memory's size there is none, and nothing is
written (notes/assumptions/15.md). -/
def hostWriteMem (s : State) (k : Nat) (v : Word) : State :=
  if k < memWords then s.setMem (s.mem.write k v) else s

/-- The host writes the pc (R20: "The host may also read and write `x`, `pc` and `Mem` directly between steps"). -/
def hostWritePc (s : State) (v : Word) : State := s.setPc v

/-- The halt status, the one bit the host sees (R150, R171). -/
def haltStatus (s : State) : Bool := s.run = .halted

/-- A run (R171, R173): the host issues at most `n` steps and stops on HALTED. -/
def runCycles : Nat → State → Host.Outcome State Fault Refusal
  | 0, s => .next s
  | n + 1, s =>
    match s.run with
    | .halted => .next s
    | .running =>
      match step s with
      | .next t => runCycles n t
      | .fault r => .fault r
      | .refused r => .refused r

end Sys2Proof.Machine
end

