-- ==== Sys2Proof/Machine/Orchestrator.lean ====
section
/-!
DEFINITION. The Step orchestrator as the source wires it (spec/40_datapath_units.md R104): the nine stages on the raw
instruction word, with no instruction named on the way. `Machine.step` goes through the decoder and one meaning per
instruction instead; that the two are the same machine is a statement about both.
-/

namespace Sys2Proof.Machine

/-- The nine stages of R104 on a RUNNING machine: Fetch, Partition, Control Decode, then `runStages`. -/
def cycleStages (s : State) : Stage State :=
  (fetch s.mem s.pc).bind fun ins =>
    (controlDecoder (partition ins).opcode).bind fun c => runStages c (partition ins) s

/-- One cycle of the orchestrator (R104, R105). -/
def cycle (s : State) : Host.Outcome State Fault Refusal :=
  match s.run with
  | .halted => .fault .noStepWhenHalted
  | .running => endStep s (cycleStages s)

/-- The halt that the next cycle raises, if it raises one. The hardware records no cause; "the host can work out the cause
by inspecting the unchanged state" (R150, D9), and this is that working out. -/
def haltCause (s : State) : Option HaltCause :=
  match cycleStages s with
  | .halt c => some c
  | .done _ => none
  | .fault _ => none

end Sys2Proof.Machine
end

