-- ==== Sys2Proof/Safety.lean ====
section
/-!
DEFINITION. The terms in which claims speak of a safe state and of what an instruction may change.
-/

namespace Sys2Proof.Machine

/-- The machine's invariants: the memory is in canonical form (and so holds no word beyond its size, R33), and the pc is a
multiple of 4, which "holds as an invariant of execution" (R28). -/
structure State.Inv (s : State) : Prop where
  memory : s.mem.wf = true
  pcAligned : isAligned s.pc = true

/-- The word an instruction stores to when its step completes, by its index: `sw` alone stores, one word, at its effective
address (R47, R132). -/
def storedIndex : Instr → State → Option Nat
  | .add _ _ _, _ => none
  | .sub _ _ _, _ => none
  | .slt _ _ _, _ => none
  | .sltu _ _ _, _ => none
  | .and _ _ _, _ => none
  | .or _ _ _, _ => none
  | .shift _ _ _, _ => none
  | .nor _ _ _, _ => none
  | .addi _ _ _, _ => none
  | .andi _ _ _, _ => none
  | .ori _ _ _, _ => none
  | .slti _ _ _, _ => none
  | .sltiu _ _ _, _ => none
  | .lui _ _ _, _ => none
  | .lw _ _ _, _ => none
  | .sw rs _ imm, s => some (wordIndex (effectiveAddress s rs imm))
  | .beq _ _ _, _ => none
  | .bge _ _ _, _ => none
  | .j _, _ => none

/-- The address at which an instruction accesses data, if it does: `lw` and `sw` alone (R40). -/
def dataAddress : Instr → State → Option Word
  | .add _ _ _, _ => none
  | .sub _ _ _, _ => none
  | .slt _ _ _, _ => none
  | .sltu _ _ _, _ => none
  | .and _ _ _, _ => none
  | .or _ _ _, _ => none
  | .shift _ _ _, _ => none
  | .nor _ _ _, _ => none
  | .addi _ _ _, _ => none
  | .andi _ _ _, _ => none
  | .ori _ _ _, _ => none
  | .slti _ _ _, _ => none
  | .sltiu _ _ _, _ => none
  | .lui _ _ _, _ => none
  | .lw rs _ imm, s => some (effectiveAddress s rs imm)
  | .sw rs _ imm, s => some (effectiveAddress s rs imm)
  | .beq _ _ _, _ => none
  | .bge _ _ _, _ => none
  | .j _, _ => none

/-- The pc after a completed instruction (R27): 4 on, but for a taken `beq` (R140) and for `j` (R142). A `bge` whose Zero is
true has an offset of 0, so it too goes 4 on (R141). The cases of `beq` and `bge` rest on the spec's decision D2
(notes/assumptions/3.md). -/
def nextPc : Instr → State → Word
  | .add _ _ _, s => s.pc + 4#32
  | .sub _ _ _, s => s.pc + 4#32
  | .slt _ _ _, s => s.pc + 4#32
  | .sltu _ _ _, s => s.pc + 4#32
  | .and _ _ _, s => s.pc + 4#32
  | .or _ _ _, s => s.pc + 4#32
  | .shift _ _ _, s => s.pc + 4#32
  | .nor _ _ _, s => s.pc + 4#32
  | .addi _ _ _, s => s.pc + 4#32
  | .andi _ _ _, s => s.pc + 4#32
  | .ori _ _ _, s => s.pc + 4#32
  | .slti _ _ _, s => s.pc + 4#32
  | .sltiu _ _ _, s => s.pc + 4#32
  | .lui _ _ _, s => s.pc + 4#32
  | .lw _ _ _, s => s.pc + 4#32
  | .sw _ _ _, s => s.pc + 4#32
  | .beq rs _ imm, s => if s.reg rs + signExtend imm = 0 then s.pc + 4#32 + (signExtend imm <<< 2) else s.pc + 4#32
  | .bge _ _ _, s => s.pc + 4#32
  | .j target, s => (target.setWidth 32 <<< 2) ||| ((s.pc + 4#32) &&& 0xF0000000)

end Sys2Proof.Machine
end

