-- ==== Sys2Proof/Certificates/Slice0/Obligations.lean ====
section
/-!
DEFINITION. The statements for the provers. Each docstring says which rule of spec/ it formalises, or, where it rests on a
decision of the spec or of the model, which one.

Addresses are written as numbers (a multiple of 4, at most 65535, divided by 4), not through the model's own predicates.
-/

open Sys2Proof Sys2Proof.Machine

/-! ### Encoding and decoding -/

/-- Tier 3. The encoding formulas of R73 and the decoder of R65 agree on every instruction, every operand at every value:
no bit of an encoding is dropped. -/
def Obligations.DecodeOfEncodeIsTheInstruction : Prop :=
  ∀ i : Instr, decode (encode i) = .ok i

/-- Tier 2. Every word that decodes is its instruction's word in all bits but the ignored ones, bits 10:6 of an R-type word
(R62); no two words that differ elsewhere decode to one instruction. -/
def Obligations.EncodeOfDecodeIsTheWordUpToIgnoredBits : Prop :=
  ∀ (w : Word) (i : Instr), decode w = .ok i →
    encode i = (if (partition w).opcode = 0x00 then w &&& 0xFFFFF83F else w)

/-- Tier 2. R65 to R68: the class of every word, in the spec's own numbers. The decoder rejects exactly the words whose
opcode is none of the twelve, and those of opcode 0x00 whose funct is none of the eight, each by its own halt. -/
def Obligations.EveryWordIsInOneClass : Prop :=
  ∀ w : Word,
    (decode w = .error .decode ↔
      w.toNat / 2 ^ 26 ∉ [0x00, 0x01, 0x02, 0x04, 0x08, 0x0a, 0x0b, 0x0c, 0x0d, 0x0f, 0x23, 0x2b]) ∧
    (decode w = .error .funct ↔
      w.toNat / 2 ^ 26 = 0 ∧ w.toNat % 2 ^ 6 ∉ [32, 34, 42, 43, 36, 37, 4, 39]) ∧
    decode w ≠ .error .fetchAddress ∧ decode w ≠ .error .memAlign

/-- Tier 2. The decoder and spec/opcode_table.json agree: a word decodes to an instruction exactly when it is of one row of
the table (`w & mask = match`), the row of that instruction's mnemonic, and of no other. -/
def Obligations.DecoderAgreesWithOpcodeTable : Prop :=
  ∀ w : Word, tableMnemonics w =
    match decode w with
    | .ok i => [i.mnemonic]
    | .error _ => []

/-- Tier 1. R61: the seven fields, as numbers cut from the word's number by position, for every word. -/
def Obligations.FieldsAreCutByPosition : Prop :=
  ∀ w : Word,
    (partition w).opcode.toNat = w.toNat / 2 ^ 26 ∧
    (partition w).rs.toNat = w.toNat / 2 ^ 21 % 32 ∧
    (partition w).rt.toNat = w.toNat / 2 ^ 16 % 32 ∧
    (partition w).rd.toNat = w.toNat / 2 ^ 11 % 32 ∧
    (partition w).funct.toNat = w.toNat % 64 ∧
    (partition w).imm.toNat = w.toNat % 65536 ∧
    (partition w).target.toNat = w.toNat % 67108864

/-- Tier 1. Words written out in spec/41 to 44 and spec/95 decode to the instructions they stand there for; two words that
the spec says halt are rejected by the right name. -/
def Obligations.WordsOfTheSpecDecode : Prop :=
  decode 0x00221820 = .ok (.add 1 2 3) ∧ decode 0x00221FE0 = .ok (.add 1 2 3) ∧
  decode 0x20010005 = .ok (.addi 0 1 5) ∧ decode 0x3C018001 = .ok (.lui 0 1 0x8001) ∧
  decode 0x8C41FFFC = .ok (.lw 2 1 0xFFFC) ∧ decode 0xAC410008 = .ok (.sw 2 1 8) ∧
  decode 0x1020FFFE = .ok (.beq 1 0 0xFFFE) ∧ decode 0x0422FFFF = .ok (.bge 1 2 0xFFFF) ∧
  decode 0x08000100 = .ok (.j 0x100) ∧
  decode 0x00000000 = .error .funct ∧ decode 0xFC00003F = .error .decode

/-- Tier 1. Every instruction is well-formed under the control table: no row of R90 makes two accesses, writes back what was
not read, branches and jumps at once, or leaves its destination open (R98, R99, R103, U5). -/
def Obligations.EveryInstructionIsWellFormed : Prop :=
  ∀ i : Instr, i.wellFormed controlTable = true

/-- Tier 2. R69: bits 10:6 of an R-type word do not change what it decodes to, and the register fields that `shift`, `nor`,
`lui`, `beq` and `bge` read and do not use do not change what the instruction does. The last clause frees the immediate of
`bge` too, which is no ignored field of R69 but R141's "for every value of every field". That funct 4 and funct 39 use one
operand is the spec's decision D13 (notes/assumptions/9.md), that `beq` and `bge` have the rows they have is D2
(notes/assumptions/3.md). -/
def Obligations.IgnoredBitsHaveNoEffect : Prop :=
  (∀ w v : Word, (partition w).opcode = 0x00 → w &&& 0xFFFFF83F = v &&& 0xFFFFF83F → decode w = decode v) ∧
  (∀ (r r' rt rd : RegIdx) (s : State), exec (.shift r rt rd) s = exec (.shift r' rt rd) s) ∧
  (∀ (rs r r' rd : RegIdx) (s : State), exec (.nor rs r rd) s = exec (.nor rs r' rd) s) ∧
  (∀ (r r' rt : RegIdx) (imm : Imm16) (s : State), exec (.lui r rt imm) s = exec (.lui r' rt imm) s) ∧
  (∀ (rs r r' : RegIdx) (imm : Imm16) (s : State), exec (.beq rs r imm) s = exec (.beq rs r' imm) s) ∧
  (∀ (r r' q q' : RegIdx) (imm imm' : Imm16) (s : State), exec (.bge r q imm) s = exec (.bge r' q' imm') s)

/-! ### The units -/

/-- Tier 1. R80 and R82: the ALU's flag is true exactly when the ALU's result is 0, for every operation. -/
def Obligations.ZeroFlagTellsResultIsZero : Prop :=
  ∀ (a b : Word) (sel : AluCode), (alu a b sel).2 = true ↔ (alu a b sel).1 = 0

/-- Tier 1. R81, R83 to R85: each selector's result as exact arithmetic. Rows 2, 3 and 4 rest on the spec's decisions D1 and
D11 (notes/assumptions/2.md). -/
def Obligations.AluSelectorsComputeTheTable : Prop :=
  ∀ a b : Word,
    (alu a b .c0).1.toNat = (a.toNat + b.toNat) % 2 ^ 32 ∧
    ((alu a b .c1).1.toNat : Int) = ((a.toNat : Int) - (b.toNat : Int)) % 2 ^ 32 ∧
    (alu a b .c2).1 = (if a.toInt < b.toInt then 1 else 0) ∧
    (alu a b .c3).1 = (if a.toNat < b.toNat then 1 else 0) ∧
    (∀ n : Nat, (alu a b .c4).1.getLsbD n = (a.getLsbD n && b.getLsbD n)) ∧
    (∀ n : Nat, (alu a b .c5).1.getLsbD n = (a.getLsbD n || b.getLsbD n)) ∧
    (alu a b .c6).1.toNat = b.toNat % 65536 * 65536 ∧
    (alu a b .c7).1.toNat = 0xFFFFFFFF - a.toNat

/-- Tier 1. R93: Sign Extend, by the source's property for either value of bit 15, and as a number: the extended value is
the immediate as a two's-complement number. -/
def Obligations.SignExtendFillsFromBit15 : Prop :=
  ∀ v : Imm16,
    (v.getLsbD 15 = true → signExtend v = v.setWidth 32 ||| 0xFFFF0000) ∧
    (v.getLsbD 15 = false → signExtend v = v.setWidth 32 &&& 0x0000FFFF ∧ signExtend v = v.setWidth 32) ∧
    (signExtend v).toInt = v.toInt

/-- Tier 1. R91, with R89 (D3): the don't-cares of the table are unobservable. Whatever RegDst and MemtoReg are in the rows
of `beq` and `sw`, and RegDst, Branch, MemtoReg and ALUSrc in the row of `j`, the stages do the same; and so they do with
0 for the MemRead of `j`. -/
def Obligations.DontCaresAreUnobservable : Prop :=
  ∀ (u v w x : Signal) (f : Fields) (s : State),
    runStages { controlTable .beq with regDst := u, memtoReg := v } f s = runStages (controlTable .beq) f s ∧
    runStages { controlTable .sw with regDst := u, memtoReg := v } f s = runStages (controlTable .sw) f s ∧
    runStages { controlTable .j with regDst := u, memtoReg := v, branch := w, aluSrc := x, memRead := .zero } f s =
      runStages (controlTable .j) f s

/-- Tier 1. R98: with both memory flags asserted the read is evaluated, on the memory as it was, and then the write; a
misaligned address halts; and no row of the table asserts both. -/
def Obligations.BothAccessesAreReadThenWrite : Prop :=
  (∀ (c : Control) (a v : Word) (m : Memory), c.memRead = .one → c.memWrite = .one →
    (a.toNat % 4 = 0 → a.toNat ≤ 65535 →
      memoryAccess c a v m = .done (some (m.read (a.toNat / 4)), m.write (a.toNat / 4) v)) ∧
    (a.toNat % 4 ≠ 0 → memoryAccess c a v m = .halt .memAlign)) ∧
  (∀ op : Opcode, ¬((controlTable op).memRead = .one ∧ (controlTable op).memWrite = .one))

/-- Tier 2. R99 (D16, notes/assumptions/13.md): a row that writes back the memory output without a read ends in the spec's fault,
whatever the fields and the state are, if the stages before Register Write go on. The ALU stage does when ALUOp is not 7 or
the funct is one of the eight; Memory Access does when nothing is stored, or the ALU result is an aligned address in the
memory (which ends at 65535 by D5, notes/assumptions/4.md). No row of the table is such a row. -/
def Obligations.WriteBackWithoutReadFaults : Prop :=
  (∀ (c : Control) (f : Fields) (s : State), c.regWrite = .one → c.memtoReg = .one → c.memRead ≠ .one →
    (c.aluOp ≠ .c7 ∨ f.funct.toNat ∈ [32, 34, 42, 43, 36, 37, 4, 39]) →
    ∃ out, aluOperations c f.funct (s.reg f.rs) (s.reg f.rt) (signExtend f.imm) = .done out ∧
      ((c.memWrite = .one → out.1.toNat % 4 = 0 ∧ out.1.toNat ≤ 65535) →
        runStages c f s = .fault .memdataUndefined)) ∧
  (∀ op : Opcode, ¬((controlTable op).regWrite = .one ∧ (controlTable op).memtoReg = .one ∧
    (controlTable op).memRead ≠ .one))

/-- Tier 1. R103 (D10): where both are asserted the jump wins, with the top four bits of `pc + 4`; no row of the table
asserts both. -/
def Obligations.JumpWinsOverBranch : Prop :=
  (∀ (c : Control) (target : Target26) (extended pc : Word) (zero : Bool), c.jump = .one → c.branch = .one →
    pcUpdate c target extended zero pc = (target.setWidth 32 <<< 2) ||| ((pc + 4#32) &&& 0xF0000000)) ∧
  (∀ op : Opcode, ¬((controlTable op).jump = .one ∧ (controlTable op).branch = .one))

/-- Tier 2. R101 as exact arithmetic: 4 on; with a taken branch, four times the signed immediate further, modulo 2^32; with a
jump, the target times 4 below the top four bits of the incremented pc. That a don't-care Jump or Branch counts as not set
is the spec's decision D3 (notes/assumptions/10.md); that the jump clause holds with Branch asserted too is D10
(notes/assumptions/13.md). -/
def Obligations.PcUpdateComputesTheAddresses : Prop :=
  ∀ (c : Control) (target : Target26) (imm : Imm16) (zero : Bool) (pc : Word),
    (c.jump ≠ .one → ¬(c.branch = .one ∧ zero = true) →
      (pcUpdate c target (signExtend imm) zero pc).toNat = (pc.toNat + 4) % 2 ^ 32) ∧
    (c.jump ≠ .one → c.branch = .one → zero = true →
      ((pcUpdate c target (signExtend imm) zero pc).toNat : Int) = ((pc.toNat : Int) + 4 + 4 * imm.toInt) % 2 ^ 32) ∧
    (c.jump = .one →
      (pcUpdate c target (signExtend imm) zero pc).toNat =
        (pc.toNat + 4) % 2 ^ 32 / 2 ^ 28 * 2 ^ 28 + target.toNat * 4)

/-- Tier 2. The other rows of spec/90_conflicts.md C2 and C3, run on the machine's own ALU: under them `beq` would branch iff
`x[rs] = x[rt]`, and `bge` iff `signed(x[rs]) >= signed(x[rt])`. Only the rows are taken from `cfg`: the ALU map is that of
`Machine.config` whatever `cfg.aluMap` is, and that its selector 2 compares as signed is the spec's D1 and D11
(notes/assumptions/2.md). The model does not run with these rows (D2, notes/assumptions/3.md). -/
def Obligations.AlternativeBranchRowsCompareRegisters : Prop :=
  ∀ (cfg : Config) (rs rt : RegIdx) (imm : Imm16) (s : State),
    (cfg.beqRow = .asNamed →
      runStages (controlRow cfg .beq) { rs := rs, rt := rt, imm := imm } s =
        .done (s.setPc (if s.reg rs = s.reg rt then s.pc + 4#32 + (signExtend imm <<< 2) else s.pc + 4#32))) ∧
    (cfg.bgeRow = .asNamed →
      runStages (controlRow cfg .bge) { rs := rs, rt := rt, imm := imm } s =
        .done (s.setPc (if (s.reg rt).toInt ≤ (s.reg rs).toInt then s.pc + 4#32 + (signExtend imm <<< 2) else s.pc + 4#32)))

/-! ### The register-register instructions

Each runs in every state: the next state is the start state with one register and the pc changed. Which fields name the
two sources is the spec's decision D4 (notes/assumptions/9.md). -/

/-- Tier 1. R110. -/
def Obligations.AddWritesTheSum : Prop :=
  ∀ (rs rt rd : RegIdx) (s : State), (partition (encode (.add rs rt rd))).funct = 32 ∧
    exec (.add rs rt rd) s = .next ((s.setReg rd (s.reg rs + s.reg rt)).setPc (s.pc + 4#32))

/-- Tier 1. R111. -/
def Obligations.SubWritesTheDifference : Prop :=
  ∀ (rs rt rd : RegIdx) (s : State), (partition (encode (.sub rs rt rd))).funct = 34 ∧
    exec (.sub rs rt rd) s = .next ((s.setReg rd (s.reg rs - s.reg rt)).setPc (s.pc + 4#32))

/-- Tier 1. R112. The signed reading and the selector are the spec's decisions D1 and D11 (notes/assumptions/2.md). -/
def Obligations.SltWritesSignedLessThan : Prop :=
  ∀ (rs rt rd : RegIdx) (s : State), (partition (encode (.slt rs rt rd))).funct = 42 ∧
    exec (.slt rs rt rd) s =
      .next ((s.setReg rd (if (s.reg rs).toInt < (s.reg rt).toInt then 1 else 0)).setPc (s.pc + 4#32))

/-- Tier 1. R113. The selector is the spec's decision D1 (notes/assumptions/2.md). -/
def Obligations.SltuWritesUnsignedLessThan : Prop :=
  ∀ (rs rt rd : RegIdx) (s : State), (partition (encode (.sltu rs rt rd))).funct = 43 ∧
    exec (.sltu rs rt rd) s =
      .next ((s.setReg rd (if (s.reg rs).toNat < (s.reg rt).toNat then 1 else 0)).setPc (s.pc + 4#32))

/-- Tier 1. R114. -/
def Obligations.AndWritesTheConjunction : Prop :=
  ∀ (rs rt rd : RegIdx) (s : State), (partition (encode (.and rs rt rd))).funct = 36 ∧
    exec (.and rs rt rd) s = .next ((s.setReg rd (s.reg rs &&& s.reg rt)).setPc (s.pc + 4#32))

/-- Tier 1. R115. -/
def Obligations.OrWritesTheDisjunction : Prop :=
  ∀ (rs rt rd : RegIdx) (s : State), (partition (encode (.or rs rt rd))).funct = 37 ∧
    exec (.or rs rt rd) s = .next ((s.setReg rd (s.reg rs ||| s.reg rt)).setPc (s.pc + 4#32))

/-- Tier 1. R116: the low half of `x[rt]` becomes the high half, and the low half is 0. That funct 4 reaches this operation
is the spec's decision D13 (notes/assumptions/9.md). -/
def Obligations.ShiftWritesLowHalfShiftedUp : Prop :=
  ∀ (rs rt rd : RegIdx) (s : State), (partition (encode (.shift rs rt rd))).funct = 4 ∧
    ∃ v : Word, v.toNat = (s.reg rt).toNat % 65536 * 65536 ∧
      exec (.shift rs rt rd) s = .next ((s.setReg rd v).setPc (s.pc + 4#32))

/-- Tier 1. R117: the complement of `x[rs]` alone. That funct 39 reaches this operation is the spec's decision D13
(notes/assumptions/9.md). -/
def Obligations.NorWritesTheComplement : Prop :=
  ∀ (rs rt rd : RegIdx) (s : State), (partition (encode (.nor rs rt rd))).funct = 39 ∧
    exec (.nor rs rt rd) s = .next ((s.setReg rd (~~~(s.reg rs))).setPc (s.pc + 4#32))

/-! ### The register-immediate instructions -/

/-- Tier 1. R120. -/
def Obligations.AddiWritesTheSum : Prop :=
  ∀ (rs rt : RegIdx) (imm : Imm16) (s : State),
    (partition (encode (.addi rs rt imm))).opcode = 0x08 ∧ (controlTable .addi).aluOp = .c0 ∧
    exec (.addi rs rt imm) s = .next ((s.setReg rt (s.reg rs + signExtend imm)).setPc (s.pc + 4#32))

/-- Tier 1. R121: the immediate is sign-extended. -/
def Obligations.AndiWritesConjunctionWithExtended : Prop :=
  ∀ (rs rt : RegIdx) (imm : Imm16) (s : State),
    (partition (encode (.andi rs rt imm))).opcode = 0x0c ∧ (controlTable .andi).aluOp = .c4 ∧
    exec (.andi rs rt imm) s = .next ((s.setReg rt (s.reg rs &&& signExtend imm)).setPc (s.pc + 4#32))

/-- Tier 1. R122: the immediate is sign-extended, so with bit 15 set the upper half of the result is all ones. -/
def Obligations.OriWritesDisjunctionWithExtended : Prop :=
  ∀ (rs rt : RegIdx) (imm : Imm16) (s : State),
    (partition (encode (.ori rs rt imm))).opcode = 0x0d ∧ (controlTable .ori).aluOp = .c5 ∧
    exec (.ori rs rt imm) s = .next ((s.setReg rt (s.reg rs ||| signExtend imm)).setPc (s.pc + 4#32)) ∧
    (imm.getLsbD 15 = true → (s.reg rs ||| signExtend imm).extractLsb' 16 16 = 0xFFFF)

/-- Tier 1. R123. The signed reading and the selector are the spec's decisions D1 and D11 (notes/assumptions/2.md). -/
def Obligations.SltiWritesSignedLessThan : Prop :=
  ∀ (rs rt : RegIdx) (imm : Imm16) (s : State),
    (partition (encode (.slti rs rt imm))).opcode = 0x0a ∧
    exec (.slti rs rt imm) s =
      .next ((s.setReg rt (if (s.reg rs).toInt < (signExtend imm).toInt then 1 else 0)).setPc (s.pc + 4#32))

/-- Tier 1. R124. The selector is the spec's decision D1 (notes/assumptions/2.md). -/
def Obligations.SltiuWritesUnsignedLessThan : Prop :=
  ∀ (rs rt : RegIdx) (imm : Imm16) (s : State),
    (partition (encode (.sltiu rs rt imm))).opcode = 0x0b ∧
    exec (.sltiu rs rt imm) s =
      .next ((s.setReg rt (if (s.reg rs).toNat < (signExtend imm).toNat then 1 else 0)).setPc (s.pc + 4#32))

/-- Tier 1. R125: the result is the immediate above sixteen zeros, for every immediate: the extension bits are shifted out. -/
def Obligations.LuiWritesUpperImmediate : Prop :=
  ∀ (rs rt : RegIdx) (imm : Imm16) (s : State),
    (partition (encode (.lui rs rt imm))).opcode = 0x0f ∧ (controlTable .lui).aluOp = .c6 ∧
    ∃ v : Word, v.toNat = imm.toNat * 65536 ∧
      exec (.lui rs rt imm) s = .next ((s.setReg rt v).setPc (s.pc + 4#32))

/-! ### The load and the store -/

/-- Tier 1. R131: at an aligned address in the memory, `lw` writes the word there to `x[rt]`. That the memory ends at 65535 is
the spec's decision D5 (notes/assumptions/4.md). -/
def Obligations.LwLoadsTheWord : Prop :=
  ∀ (rs rt : RegIdx) (imm : Imm16) (s : State),
    (s.reg rs + signExtend imm).toNat % 4 = 0 → (s.reg rs + signExtend imm).toNat ≤ 65535 →
    exec (.lw rs rt imm) s =
      .next ((s.setReg rt (s.mem.read ((s.reg rs + signExtend imm).toNat / 4))).setPc (s.pc + 4#32))

/-- Tier 1. R132: at an aligned address in the memory, `sw` replaces the word there by `x[rt]`. That the value is `x[rt]` is
the spec's decision D4 (notes/assumptions/9.md), that the memory ends at 65535 is D5 (notes/assumptions/4.md). -/
def Obligations.SwStoresTheWord : Prop :=
  ∀ (rs rt : RegIdx) (imm : Imm16) (s : State),
    (s.reg rs + signExtend imm).toNat % 4 = 0 → (s.reg rs + signExtend imm).toNat ≤ 65535 →
    exec (.sw rs rt imm) s =
      .next ((s.setMem (s.mem.write ((s.reg rs + signExtend imm).toNat / 4) (s.reg rt))).setPc (s.pc + 4#32))

/-- Tier 1. R154 and R155: a load or a store at an address that is no multiple of 4 halts, whatever its size, and changes nothing
else. Every other instruction answers a next state with the run state as it was (R164), so none of them halts here; for `j`
that rests on its don't-care MemRead not being asserted, the spec's decision D3 (notes/assumptions/10.md). -/
def Obligations.MisalignedAccessHalts : Prop :=
  (∀ (rs rt : RegIdx) (imm : Imm16) (s : State), (s.reg rs + signExtend imm).toNat % 4 ≠ 0 →
    exec (.lw rs rt imm) s = .next (s.setRun .halted) ∧ exec (.sw rs rt imm) s = .next (s.setRun .halted)) ∧
  (∀ (i : Instr) (s : State), (∀ rs rt imm, i ≠ .lw rs rt imm) → (∀ rs rt imm, i ≠ .sw rs rt imm) →
    ∃ t, exec i s = .next t ∧ t.run = s.run)

/-- Tier 1. R42, R43, R157, by the spec's decision D5 (notes/assumptions/4.md): an aligned address above 65535 is the spec's
fault. -/
def Obligations.AccessBeyondMemoryFaults : Prop :=
  ∀ (rs rt : RegIdx) (imm : Imm16) (s : State),
    (s.reg rs + signExtend imm).toNat % 4 = 0 → 65535 < (s.reg rs + signExtend imm).toNat →
    exec (.lw rs rt imm) s = .fault .dataAddressRange ∧ exec (.sw rs rt imm) s = .fault .dataAddressRange

/-- Tier 2. R133: after a completed store, a load at the same effective address, through any base register and any
displacement, gives the stored word. That the stored word is `x[rt]` is D4 (notes/assumptions/9.md). The memory is in its
canonical form, as in every state a run reaches. -/
def Obligations.StoreThenLoadReturnsTheWord : Prop :=
  ∀ (rs rt rs' rt' : RegIdx) (imm imm' : Imm16) (s t : State),
    s.mem.wf = true → s.run = .running → exec (.sw rs rt imm) s = .next t → t.run = .running →
    t.reg rs' + signExtend imm' = s.reg rs + signExtend imm →
    exec (.lw rs' rt' imm') t = .next ((t.setReg rt' (s.reg rt)).setPc (s.pc + 8#32))

/-- Tier 2. R52: a word stored where the next instruction stands is what the next step fetches: no fence, no delay. The next step
runs the instruction it decodes to, or halts if it decodes to none. That the word stored is `x[rt]` is the spec's decision
D4 (notes/assumptions/9.md). -/
def Obligations.StoreIsSeenByTheNextFetch : Prop :=
  ∀ (rs rt : RegIdx) (imm : Imm16) (s : State),
    s.mem.wf = true → s.run = .running → s.pc.toNat % 4 = 0 → s.pc.toNat < 65532 →
    decode (s.mem.read (s.pc.toNat / 4)) = .ok (.sw rs rt imm) →
    s.reg rs + signExtend imm = s.pc + 4#32 →
    ∃ t, step s = .next t ∧ t.pc = s.pc + 4#32 ∧ t.mem.read ((s.pc + 4#32).toNat / 4) = s.reg rt ∧
      step t =
        match decode (s.reg rt) with
        | .ok i => exec i t
        | .error _ => .next (t.setRun .halted)

/-! ### Control transfers -/

/-- Tier 1. R140, by the spec's decision D2 (notes/assumptions/3.md): taken iff the sum of `x[rs]` and the extended
immediate is 0 modulo 2^32. -/
def Obligations.BeqBranchesOnZeroSum : Prop :=
  ∀ (rs rt : RegIdx) (imm : Imm16) (s : State), (partition (encode (.beq rs rt imm))).opcode = 0x04 ∧
    exec (.beq rs rt imm) s =
      .next (s.setPc (if ((s.reg rs).toNat + (signExtend imm).toNat) % 2 ^ 32 = 0
        then s.pc + 4#32 + (signExtend imm <<< 2) else s.pc + 4#32))

/-- Tier 2. R141, by the spec's decision D2 (notes/assumptions/3.md): `bge` never branches, for any value of any field. -/
def Obligations.BgeOnlyAdvancesThePc : Prop :=
  ∀ (rs rt : RegIdx) (imm : Imm16) (s : State), (partition (encode (.bge rs rt imm))).opcode = 0x01 ∧
    exec (.bge rs rt imm) s = .next (s.setPc (s.pc + 4#32))

/-- Tier 2. R142: the jump address, and, from a pc that can have been fetched from, the target times 4. That the don't-cares
of the row are not asserted is the spec's decision D3 (notes/assumptions/10.md). -/
def Obligations.JumpGoesToTheTarget : Prop :=
  ∀ (target : Target26) (s : State), (partition (encode (.j target))).opcode = 0x02 ∧
    ∃ a : Word, exec (.j target) s = .next (s.setPc a) ∧
      a = ((target.setWidth 32 <<< 2) ||| ((s.pc + 4#32) &&& 0xF0000000)) ∧
      (s.pc.toNat ≤ 65532 → a.toNat = target.toNat * 4)

/-! ### Frames -/

/-- Tier 2. R22, R24: an instruction that answers a next state leaves every register alone but the one it writes: `rd` of an
R-type instruction, `rt` of an immediate instruction and of `lw`, none of `sw`, `beq`, `bge`, `j`. Register 0 is a
destination like any other. -/
def Obligations.OnlyTheDestinationRegisterChanges : Prop :=
  ∀ (i : Instr) (s t : State), exec i s = .next t →
    ∀ r : RegIdx, destinationOf i ≠ some r → t.reg r = s.reg r

/-- Tier 2. R40, R43, R47: an instruction that answers a next state leaves every word of memory alone but, for `sw`, the one at
its effective address; and leaves the memory alone altogether if it is no `sw`. -/
def Obligations.OnlyTheStoredWordChanges : Prop :=
  ∀ (i : Instr) (s t : State), exec i s = .next t →
    (∀ k : Nat, storedIndex i s ≠ some k → t.mem.read k = s.mem.read k) ∧ (storedIndex i s = none → t.mem = s.mem)

/-- Tier 2. R27, with R140 to R142: the pc after every instruction that completes. R27 gives `beq` and `bge` one case each for
Zero true and false; that `beq` goes by the sum of `x[rs]` and the immediate (R140), and that `bge` goes 4 on either way
(R141), rest on the spec's decision D2 (notes/assumptions/3.md). An instruction that does not complete with a next state of
its own has taken a halt, and the pc is unchanged. -/
def Obligations.PcAfterEveryInstruction : Prop :=
  ∀ (i : Instr) (s t : State), exec i s = .next t →
    (t.pc = nextPc i s ∧ t.run = s.run) ∨ t = s.setRun .halted

/-- Tier 2. R26: no instruction can read the pc into a register or into memory: what an instruction does to them is the same
whatever the pc is. -/
def Obligations.NoInstructionReadsThePc : Prop :=
  ∀ (i : Instr) (s t : State) (p : Word), exec i s = .next t →
    ∃ t', exec i (s.setPc p) = .next t' ∧ t'.regs = t.regs ∧ t'.mem = t.mem ∧ t'.run = t.run

/-- Tier 1. R22: register 0 is an ordinary register: it holds what is written to it, and `addi` to register 0 stores its
sum there. -/
def Obligations.RegisterZeroIsOrdinary : Prop :=
  (∀ (s : State) (v : Word), (s.setReg 0 v).reg 0 = v) ∧
  (∀ (rs : RegIdx) (imm : Imm16) (s : State), ∃ t, exec (.addi rs 0 imm) s = .next t ∧
    t.reg 0 = s.reg rs + signExtend imm)

/-! ### The step -/

/-- Tier 1. A step runs the decoded instruction: on a RUNNING machine, when the word at an aligned pc of at most 65535
decodes to `i`, the step is `exec i` at that very state. Nothing is added around it: `exec` itself moves the pc. -/
def Obligations.StepRunsTheDecodedInstruction : Prop :=
  ∀ (s : State) (i : Instr), s.run = .running → s.pc.toNat % 4 = 0 → s.pc.toNat ≤ 65535 →
    decode (s.mem.read (s.pc.toNat / 4)) = .ok i → step s = exec i s

/-- Tier 2. R104: the step, which goes through the decoder and one meaning per instruction, is the nine-stage orchestrator on
the raw word: the two designs are one machine, in every state. So the fields that an instruction's format lacks, and the
bits that `Instr` does not hold, make no difference (notes/assumptions/14.md). -/
def Obligations.StepIsTheNineStageCycle : Prop :=
  ∀ s : State, step s = cycle s

/-- Tier 3. The invariants that every step keeps, from every state that has them: the memory's canonical form, with no word
beyond its size (R33), and the alignment of the pc (R28). -/
def Obligations.StepKeepsTheInvariants : Prop :=
  ∀ s t : State, s.Inv → step s = .next t → t.Inv

/-- Tier 1. The reset state has the invariants; its `run` is RUNNING (R34). The other values are the model's choice: registers
and pc 0 (notes/assumptions/1.md), every word of memory 0 (notes/assumptions/5.md). -/
def Obligations.ResetStateIsRunningWithTheInvariants : Prop :=
  State.reset.Inv ∧ State.reset.run = .running ∧ (∀ r : RegIdx, State.reset.reg r = 0) ∧ State.reset.pc = 0 ∧
    ∀ k : Nat, State.reset.mem.read k = 0

/-- Tier 1. R41 and R151: `Fetch` halts iff the pc is above 65535 or no multiple of 4, and otherwise gives the word there; a
step at such a pc halts, before any instruction is known. A step at another pc may halt for another cause (R152 to R154). -/
def Obligations.BadFetchAddressHalts : Prop :=
  (∀ (m : Memory) (a : Word), fetch m a =
    if a.toNat > 65535 ∨ a.toNat % 4 ≠ 0 then .halt .fetchAddress else .done (m.read (a.toNat / 4))) ∧
  (∀ s : State, s.run = .running → (s.pc.toNat > 65535 ∨ s.pc.toNat % 4 ≠ 0) →
    step s = .next (s.setRun .halted) ∧ haltCause s = some .fetchAddress)

/-- Tier 1. R152: a word whose opcode is none of the twelve halts, whatever its other bits. -/
def Obligations.UnsupportedOpcodeHalts : Prop :=
  ∀ s : State, s.run = .running → s.pc.toNat ≤ 65535 → s.pc.toNat % 4 = 0 →
    (s.mem.read (s.pc.toNat / 4)).toNat / 2 ^ 26 ∉
      [0x00, 0x01, 0x02, 0x04, 0x08, 0x0a, 0x0b, 0x0c, 0x0d, 0x0f, 0x23, 0x2b] →
    step s = .next (s.setRun .halted) ∧ haltCause s = some .decode

/-- Tier 1. R153: a word of opcode 0x00 whose funct is none of the eight halts; the all-zero word is one. -/
def Obligations.UnsupportedFunctHalts : Prop :=
  ∀ s : State, s.run = .running → s.pc.toNat ≤ 65535 → s.pc.toNat % 4 = 0 →
    (s.mem.read (s.pc.toNat / 4)).toNat / 2 ^ 26 = 0 →
    (s.mem.read (s.pc.toNat / 4)).toNat % 64 ∉ [32, 34, 42, 43, 36, 37, 4, 39] →
    step s = .next (s.setRun .halted) ∧ haltCause s = some .funct

/-- Tier 2. R155: what a halt does. A step in which a stage raises a halt ends in HALTED; and a step after which the machine
is HALTED has changed nothing else: registers, pc and memory are as they were before it began. -/
def Obligations.HaltChangesNothingElse : Prop :=
  (∀ (s : State) (c : HaltCause), s.run = .running → cycleStages s = .halt c → ∃ t, step s = .next t ∧ t.run = .halted) ∧
  (∀ s t : State, step s = .next t → t.run = .halted →
    s.run = .running ∧ t.regs = s.regs ∧ t.pc = s.pc ∧ t.mem = s.mem)

/-- Tier 2. R156: at most one halt, the first in stage order, and R151 to R154: when each is raised, under the spec's names for
the causes (D9, notes/assumptions/12.md). The pc is looked at first; the opcode and the funct of the fetched word next; the
data address of a `lw` or `sw` last. That `j` never raises the last rests on its don't-care MemRead not being asserted, the
spec's decision D3 (notes/assumptions/10.md). -/
def Obligations.HaltCausesAreInStageOrder : Prop :=
  ∀ s : State,
    (haltCause s = some .fetchAddress ↔ (s.pc.toNat > 65535 ∨ s.pc.toNat % 4 ≠ 0)) ∧
    (haltCause s = some .decode ↔ (s.pc.toNat ≤ 65535 ∧ s.pc.toNat % 4 = 0 ∧
      decode (s.mem.read (s.pc.toNat / 4)) = .error .decode)) ∧
    (haltCause s = some .funct ↔ (s.pc.toNat ≤ 65535 ∧ s.pc.toNat % 4 = 0 ∧
      decode (s.mem.read (s.pc.toNat / 4)) = .error .funct)) ∧
    (haltCause s = some .memAlign ↔ (s.pc.toNat ≤ 65535 ∧ s.pc.toNat % 4 = 0 ∧
      ∃ i a, decode (s.mem.read (s.pc.toNat / 4)) = .ok i ∧ dataAddress i s = some a ∧ a.toNat % 4 ≠ 0))

/-- Tier 2. R106: a step of a RUNNING machine does exactly one of three things: it completes, still RUNNING; it halts, with
one of the four causes; or it meets the one case the source does not define, an aligned data address above 65535 (D5,
notes/assumptions/4.md). That `j` has no data address rests on its don't-care MemRead not being asserted, the spec's
decision D3 (notes/assumptions/10.md). -/
def Obligations.StepCompletesHaltsOrFaults : Prop :=
  ∀ s : State, s.run = .running →
    (haltCause s = none ∧ ∃ t, step s = .next t ∧ t.run = .running) ∨
    (haltCause s ≠ none ∧ step s = .next (s.setRun .halted)) ∨
    (haltCause s = none ∧ step s = .fault .dataAddressRange ∧
      ∃ i a, decode (s.mem.read (s.pc.toNat / 4)) = .ok i ∧ dataAddress i s = some a ∧
        a.toNat % 4 = 0 ∧ a.toNat > 65535)

/-- Tier 1. R105 and R159, by the spec's decision D8 (notes/assumptions/11.md): a HALTED machine has no step. -/
def Obligations.HaltedMachineHasNoStep : Prop :=
  ∀ s : State, s.run = .halted → step s = .fault .noStepWhenHalted

/-- Tier 1. Placing a word where the next step fetches makes that step run exactly it: the decoded instruction's meaning in
that state, or the halt of a word that is none. How a program is placed is the model's own (notes/assumptions/7.md). -/
def Obligations.PlacedWordIsRunNext : Prop :=
  ∀ (s : State) (w : Word), s.mem.wf = true →
    step (s.withFetchWord 32 w.toNat) =
      match decode w with
      | .ok i => exec i (s.withFetchWord 32 w.toNat)
      | .error _ => .next ((s.withFetchWord 32 w.toNat).setRun .halted)

/-! ### The memory, the launch and the run -/

/-- Tier 2. R170 (D7, notes/assumptions/1.md): the launch holds exactly what the host supplies, for any registers, any pc and
any image of at most 16384 words, and is RUNNING. -/
def Obligations.LaunchHoldsWhatTheHostSupplies : Prop :=
  ∀ (regs : Vector Word 32) (pc : Word) (image : List Word), image.length ≤ 16384 →
    (launch regs pc image).regs = regs ∧ (launch regs pc image).pc = pc ∧ (launch regs pc image).run = .running ∧
    (launch regs pc image).mem.wf = true ∧
    ∀ (k : Nat) (h : k < image.length), (launch regs pc image).mem.read k = image[k]

/-- Tier 1. R171, R20: a host write to a register, a word or the pc is read back there and changes nothing else. That the model has none during a run is
notes/assumptions/8.md. -/
def Obligations.HostWriteChangesOnePlace : Prop :=
  ∀ (s : State) (v : Word), s.mem.wf = true →
    (∀ i : RegIdx, (hostWriteReg s i v).reg i = v ∧ (∀ r, r ≠ i → (hostWriteReg s i v).reg r = s.reg r) ∧
      (hostWriteReg s i v).mem = s.mem ∧ (hostWriteReg s i v).pc = s.pc ∧ (hostWriteReg s i v).run = s.run) ∧
    (∀ k : Nat, k < 16384 → (hostWriteMem s k v).mem.read k = v ∧
      (∀ j, j ≠ k → (hostWriteMem s k v).mem.read j = s.mem.read j) ∧ (hostWriteMem s k v).mem.wf = true ∧
      (hostWriteMem s k v).regs = s.regs ∧ (hostWriteMem s k v).pc = s.pc ∧ (hostWriteMem s k v).run = s.run) ∧
    ((hostWritePc s v).pc = v ∧ (hostWritePc s v).regs = s.regs ∧ (hostWritePc s v).mem = s.mem ∧
      (hostWritePc s v).run = s.run)

/-- Tier 2. R173: what a run of at most `n` steps does. After its number of steps it ends in the state reached (case b); it
takes a step that answers a next state and goes on from there; it stops on HALTED, in the state before the halting step with
`run` HALTED (case a); the spec's fault ends it without a state (R157, D5, notes/assumptions/4.md); and a run of `m + n`
steps is one of `m` and then one of `n`. The host writes nothing in between (notes/assumptions/8.md). -/
def Obligations.RunStopsOnHaltedOrAfterItsSteps : Prop :=
  (∀ s : State, runCycles 0 s = .next s) ∧
  (∀ (n : Nat) (s t : State), s.run = .running → step s = .next t → runCycles (n + 1) s = runCycles n t) ∧
  (∀ (n : Nat) (s : State), s.run = .halted → runCycles n s = .next s) ∧
  (∀ (n : Nat) (s : State), s.run = .running → haltCause s ≠ none →
    runCycles (n + 1) s = .next (s.setRun .halted)) ∧
  (∀ (n : Nat) (s : State) (r : Fault), s.run = .running → step s = .fault r → runCycles (n + 1) s = .fault r) ∧
  (∀ (m n : Nat) (s t : State), runCycles m s = .next t → runCycles (m + n) s = runCycles n t)
end

