-- ==== Sys2Proof/Laws/State.lean ====
section
/-!
SUPPORT. One lemma per field per update of the state, so that no later proof unfolds a record update.
-/

namespace Sys2Proof.Machine

/-! ### The fields after each update -/

@[simp] theorem State.setReg_pc (s : State) (i : RegIdx) (v : Word) : (s.setReg i v).pc = s.pc := rfl
@[simp] theorem State.setReg_mem (s : State) (i : RegIdx) (v : Word) : (s.setReg i v).mem = s.mem := rfl
@[simp] theorem State.setReg_run (s : State) (i : RegIdx) (v : Word) : (s.setReg i v).run = s.run := rfl
@[simp] theorem State.setPc_regs (s : State) (t : Word) : (s.setPc t).regs = s.regs := rfl
@[simp] theorem State.setPc_pc (s : State) (t : Word) : (s.setPc t).pc = t := rfl
@[simp] theorem State.setPc_mem (s : State) (t : Word) : (s.setPc t).mem = s.mem := rfl
@[simp] theorem State.setPc_run (s : State) (t : Word) : (s.setPc t).run = s.run := rfl
@[simp] theorem State.setMem_regs (s : State) (m : Memory) : (s.setMem m).regs = s.regs := rfl
@[simp] theorem State.setMem_pc (s : State) (m : Memory) : (s.setMem m).pc = s.pc := rfl
@[simp] theorem State.setMem_mem (s : State) (m : Memory) : (s.setMem m).mem = m := rfl
@[simp] theorem State.setMem_run (s : State) (m : Memory) : (s.setMem m).run = s.run := rfl
@[simp] theorem State.setRun_regs (s : State) (r : RunState) : (s.setRun r).regs = s.regs := rfl
@[simp] theorem State.setRun_pc (s : State) (r : RunState) : (s.setRun r).pc = s.pc := rfl
@[simp] theorem State.setRun_mem (s : State) (r : RunState) : (s.setRun r).mem = s.mem := rfl
@[simp] theorem State.setRun_run (s : State) (r : RunState) : (s.setRun r).run = r := rfl

/-! ### Registers after each update -/

@[simp] theorem State.setPc_reg (s : State) (t : Word) (i : RegIdx) : (s.setPc t).reg i = s.reg i := rfl
@[simp] theorem State.setMem_reg (s : State) (m : Memory) (i : RegIdx) : (s.setMem m).reg i = s.reg i := rfl
@[simp] theorem State.setRun_reg (s : State) (r : RunState) (i : RegIdx) : (s.setRun r).reg i = s.reg i := rfl

/-- A read after a write to the same register gives the value written, for register 0 as for any other. -/
@[simp] theorem State.setReg_reg_same (s : State) (i : RegIdx) (v : Word) : (s.setReg i v).reg i = v := by
  simp [State.setReg, State.reg]

/-- A write to one register leaves every other register alone. -/
theorem State.setReg_reg_ne (s : State) (i k : RegIdx) (v : Word) (h : k ≠ i) : (s.setReg i v).reg k = s.reg k := by
  have : i.toNat ≠ k.toNat := fun e => h (BitVec.eq_of_toNat_eq e.symm)
  simp [State.setReg, State.reg, this]

theorem State.setReg_reg (s : State) (i k : RegIdx) (v : Word) :
    (s.setReg i v).reg k = if k = i then v else s.reg k := by
  by_cases h : k = i
  · subst h; simp
  · simp [h, State.setReg_reg_ne]

/-! ### Updates that change nothing, and updates that meet -/

@[simp] theorem State.setMem_self (s : State) : s.setMem s.mem = s := rfl
@[simp] theorem State.setRun_self (s : State) : s.setRun s.run = s := rfl
@[simp] theorem State.setPc_setPc (s : State) (t u : Word) : (s.setPc t).setPc u = s.setPc u := rfl

/-- Two states with the same registers, pc, memory and run state are the same state. -/
theorem State.eq_of_fields {s t : State} (hr : s.regs = t.regs) (hp : s.pc = t.pc) (hm : s.mem = t.mem)
    (hn : s.run = t.run) : s = t := by
  cases s; cases t; simp_all

/-- Two states that agree on every register have the same register file. -/
theorem State.regs_ext {s t : State} (h : ∀ i : RegIdx, s.reg i = t.reg i) : s.regs = t.regs := by
  apply Vector.ext
  intro k hk
  have := h (BitVec.ofNat 5 k)
  have e : (BitVec.ofNat 5 k).toNat = k := by simp; omega
  simpa [State.reg, e] using this

/-! ### The reset state and the configuration -/

@[simp] theorem State.reset_run : State.reset.run = .running := rfl
@[simp] theorem State.reset_pc : State.reset.pc = 0 := rfl
@[simp] theorem State.reset_mem : State.reset.mem = [] := rfl

@[simp] theorem State.reset_reg (i : RegIdx) : State.reset.reg i = 0 := by
  simp [State.reset, State.reg]

@[simp] theorem config_aluMap : config.aluMap = .intent := rfl
@[simp] theorem config_beqRow : config.beqRow = .sourceTable := rfl
@[simp] theorem config_bgeRow : config.bgeRow = .sourceTable := rfl
@[simp] theorem config_memBytes : config.memBytes = 65536 := rfl
@[simp] theorem memWords_eq : memWords = 16384 := rfl
@[simp] theorem maxFetchAddress_eq : maxFetchAddress = 65535 := rfl

end Sys2Proof.Machine
end

