-- ==== Sys2Proof/Laws/Memory.lean ====
section
/-!
SUPPORT. The laws of the word array: read after write, and the canonical form that every write keeps.
-/

namespace Sys2Proof.Machine

@[simp] theorem Memory.read_nil (k : Nat) : Memory.read [] k = unlistedWord := rfl

/-! ### The canonical form -/

theorem Memory.wfFrom_cons (lo j : Nat) (w : Word) (rest : Memory) :
    Memory.wfFrom lo ((j, w) :: rest) = true ↔
      lo ≤ j ∧ j < memWords ∧ w ≠ unlistedWord ∧ Memory.wfFrom (j + 1) rest = true := by
  simp only [Memory.wfFrom, Bool.and_eq_true, decide_eq_true_eq, and_assoc]

/-- A canonical form from an index on is one from every lower index on. -/
theorem Memory.wfFrom_mono {lo lo' : Nat} {m : Memory} (h : Memory.wfFrom lo m = true) (hle : lo' ≤ lo) :
    Memory.wfFrom lo' m = true := by
  cases m with
  | nil => rfl
  | cons p rest =>
    obtain ⟨h1, h2, h3, h4⟩ := (Memory.wfFrom_cons ..).1 h
    exact (Memory.wfFrom_cons ..).2 ⟨by omega, h2, h3, h4⟩

/-- Below the lowest listed index every word reads as unlisted. -/
theorem Memory.read_of_wfFrom {m : Memory} {lo k : Nat} (h : Memory.wfFrom lo m = true) (hk : k < lo) :
    Memory.read m k = unlistedWord := by
  induction m generalizing lo with
  | nil => rfl
  | cons p rest ih =>
    obtain ⟨h1, _, _, h4⟩ := (Memory.wfFrom_cons ..).1 h
    have hne : p.1 ≠ k := by omega
    simp only [Memory.read, hne, if_false]
    exact ih h4 (by omega)

/-- Beyond the memory's size a canonical memory lists nothing. -/
theorem Memory.read_beyond {m : Memory} {lo k : Nat} (h : Memory.wfFrom lo m = true) (hk : memWords ≤ k) :
    Memory.read m k = unlistedWord := by
  induction m generalizing lo with
  | nil => rfl
  | cons p rest ih =>
    obtain ⟨_, h2, _, h4⟩ := (Memory.wfFrom_cons ..).1 h
    have hne : p.1 ≠ k := by omega
    simp only [Memory.read, hne, if_false]
    exact ih h4

theorem Memory.write_wfFrom {m : Memory} {lo k : Nat} {v : Word} (h : Memory.wfFrom lo m = true) (hlo : lo ≤ k)
    (hk : k < memWords) : Memory.wfFrom lo (Memory.write m k v) = true := by
  induction m generalizing lo with
  | nil =>
    simp only [Memory.write]
    split
    · rfl
    · rename_i hv
      exact (Memory.wfFrom_cons ..).2 ⟨hlo, hk, hv, rfl⟩
  | cons p rest ih =>
    obtain ⟨h1, h2, h3, h4⟩ := (Memory.wfFrom_cons ..).1 h
    simp only [Memory.write]
    split
    · exact (Memory.wfFrom_cons ..).2 ⟨h1, h2, h3, ih h4 (by omega)⟩
    · rename_i hjk
      by_cases he : p.1 = k
      · simp only [he, if_true]
        split
        · exact Memory.wfFrom_mono h4 (by omega)
        · rename_i hv
          exact (Memory.wfFrom_cons ..).2 ⟨hlo, hk, hv, he ▸ h4⟩
      · simp only [he, if_false]
        have h' : Memory.wfFrom (k + 1) (p :: rest) = true :=
          (Memory.wfFrom_cons ..).2 ⟨by omega, h2, h3, h4⟩
        split
        · exact h
        · rename_i hv
          exact (Memory.wfFrom_cons ..).2 ⟨hlo, hk, hv, h'⟩

/-- A write inside the memory keeps the canonical form. -/
theorem Memory.write_wf {m : Memory} {k : Nat} {v : Word} (h : m.wf = true) (hk : k < memWords) :
    (m.write k v).wf = true :=
  Memory.write_wfFrom h (Nat.zero_le _) hk

/-- The canonical form is one: two lists in it that read alike at every index are the same list. -/
theorem Memory.eq_of_read_from {m m' : Memory} {lo : Nat} (h : Memory.wfFrom lo m = true)
    (h' : Memory.wfFrom lo m' = true) (hr : ∀ k, Memory.read m k = Memory.read m' k) : m = m' := by
  induction m generalizing lo m' with
  | nil =>
    cases m' with
    | nil => rfl
    | cons q rest' =>
      obtain ⟨_, _, hq, _⟩ := (Memory.wfFrom_cons ..).1 h'
      have := hr q.1
      simp [Memory.read] at this
      exact absurd this.symm hq
  | cons p rest ih =>
    obtain ⟨h1, _, hp, h4⟩ := (Memory.wfFrom_cons ..).1 h
    cases m' with
    | nil =>
      have := hr p.1
      simp [Memory.read] at this
      exact absurd this hp
    | cons q rest' =>
      obtain ⟨h1', _, hq, h4'⟩ := (Memory.wfFrom_cons ..).1 h'
      have hpr : Memory.read (p :: rest) p.1 = p.2 := by simp [Memory.read]
      have hqr : Memory.read (q :: rest') q.1 = q.2 := by simp [Memory.read]
      have hkey : p.1 = q.1 := by
        rcases Nat.lt_trichotomy p.1 q.1 with hlt | he | hgt
        · have hlow : Memory.wfFrom q.1 (q :: rest') = true :=
            (Memory.wfFrom_cons ..).2 ⟨le_refl _, by assumption, hq, h4'⟩
          exact absurd (hpr.symm.trans ((hr p.1).trans (Memory.read_of_wfFrom hlow hlt))) hp
        · exact he
        · have hlow : Memory.wfFrom p.1 (p :: rest) = true :=
            (Memory.wfFrom_cons ..).2 ⟨le_refl _, by assumption, hp, h4⟩
          exact absurd (hqr.symm.trans ((hr q.1).symm.trans (Memory.read_of_wfFrom hlow hgt))) hq
      have hval : p.2 = q.2 := by rw [← hpr, hr, hkey, hqr]
      have hrest : rest = rest' := by
        refine ih h4 (hkey ▸ h4') fun k => ?_
        by_cases hk : k = p.1
        · rw [Memory.read_of_wfFrom h4 (by omega), Memory.read_of_wfFrom h4' (by omega)]
        · have := hr k
          simpa [Memory.read, Ne.symm hk, hkey ▸ Ne.symm hk] using this
      rw [hrest, Prod.ext hkey hval]

/-- Two canonical memories that read alike at every index are equal: equal memories are equal data. -/
theorem Memory.eq_of_read {m m' : Memory} (h : m.wf = true) (h' : m'.wf = true)
    (hr : ∀ k, Memory.read m k = Memory.read m' k) : m = m' :=
  Memory.eq_of_read_from h h' hr

theorem Memory.nil_wf : Memory.wf [] = true := rfl

/-! ### Read after write -/

/-- A write leaves every other word alone, in every list of words, canonical or not. -/
theorem Memory.read_write_ne {m : Memory} {k k' : Nat} {v : Word} (hne : k ≠ k') :
    (m.write k v).read k' = m.read k' := by
  induction m with
  | nil =>
    simp only [Memory.write]
    split <;> simp [Memory.read, hne]
  | cons p rest ih =>
    simp only [Memory.write]
    split
    · simp only [Memory.read, ih]
    · by_cases he : p.1 = k
      · have hp : p.1 ≠ k' := by omega
        split <;> simp [Memory.read, he, hne]
      · split <;> simp [Memory.read, hne]

theorem Memory.read_write_same_from {m : Memory} {lo k : Nat} {v : Word} (h : Memory.wfFrom lo m = true) :
    (Memory.write m k v).read k = v := by
  induction m generalizing lo with
  | nil =>
    simp only [Memory.write]
    split <;> simp_all [Memory.read]
  | cons p rest ih =>
    obtain ⟨h1, h2, h3, h4⟩ := (Memory.wfFrom_cons ..).1 h
    simp only [Memory.write]
    split
    · have : p.1 ≠ k := by omega
      simp [Memory.read, this, ih h4]
    · have hle : k ≤ p.1 := by omega
      by_cases hv : v = unlistedWord
      · by_cases he : p.1 = k
        · simp [he, hv, Memory.read_of_wfFrom h4 (show k < p.1 + 1 by omega)]
        · have h' : Memory.wfFrom (k + 1) (p :: rest) = true :=
            (Memory.wfFrom_cons ..).2 ⟨by omega, h2, h3, h4⟩
          simp [he, hv, Memory.read_of_wfFrom h' (Nat.lt_succ_self k)]
      · simp [hv, Memory.read]

/-- In a canonical memory, a read of the word written gives the value written. -/
theorem Memory.read_write_same {m : Memory} {k : Nat} {v : Word} (h : m.wf = true) : (m.write k v).read k = v :=
  Memory.read_write_same_from h

end Sys2Proof.Machine
end

