-- ==== Sys2Proof/Laws/Ops.lean ====
section
/-!
SUPPORT. The shared operations over addresses, memory and the step's end: what each can do, said once.
-/

namespace Sys2Proof.Machine

/-! ### Addresses as numbers -/

/-- Aligned means: a multiple of 4 (R46). -/
theorem isAligned_iff (a : Word) : isAligned a = true ↔ a.toNat % 4 = 0 := by
  simp only [isAligned, decide_eq_true_eq, ← BitVec.toNat_inj, BitVec.extractLsb'_toNat]
  simp

theorem isAligned_false_iff (a : Word) : isAligned a = false ↔ a.toNat % 4 ≠ 0 := by
  rw [← Bool.not_eq_true, isAligned_iff]

/-- `addr >> 2` is the number divided by 4 (R40). -/
theorem wordIndex_eq (a : Word) : wordIndex a = a.toNat / 4 := by
  simp [wordIndex, Nat.shiftRight_eq_div_pow]

theorem inMemory_iff (a : Word) : inMemory a = true ↔ a.toNat ≤ 65535 := by
  rw [inMemory, decide_eq_true_eq, config_memBytes]
  omega

/-- A fetchable address is at most 65535 and a multiple of 4 (R41). -/
theorem isFetchable_iff (a : Word) : isFetchable a = true ↔ a.toNat ≤ 65535 ∧ a.toNat % 4 = 0 := by
  rw [isFetchable, Bool.and_eq_true, decide_eq_true_eq, isAligned_iff, maxFetchAddress_eq]

/-- An address in the memory has its word below the memory's size. -/
theorem wordIndex_lt {a : Word} (h : inMemory a = true) : wordIndex a < memWords := by
  rw [inMemory_iff] at h
  rw [wordIndex_eq, memWords_eq]
  omega

/-- Two aligned addresses with the same word index are the same address. -/
theorem wordIndex_inj {a b : Word} (ha : isAligned a = true) (hb : isAligned b = true)
    (h : wordIndex a = wordIndex b) : a = b := by
  rw [isAligned_iff] at ha hb
  rw [wordIndex_eq, wordIndex_eq] at h
  apply BitVec.eq_of_toNat_eq
  omega

/-! ### Stages -/

@[simp] theorem Stage.bind_done {α β : Type} (a : α) (f : α → Stage β) : (Stage.done a).bind f = f a := rfl
@[simp] theorem Stage.bind_halt {α β : Type} (c : HaltCause) (f : α → Stage β) :
    (Stage.halt c : Stage α).bind f = .halt c := rfl
@[simp] theorem Stage.bind_fault {α β : Type} (r : Fault) (f : α → Stage β) :
    (Stage.fault r : Stage α).bind f = .fault r := rfl

/-- A sequence of two stages goes on exactly when both do. -/
theorem Stage.bind_eq_done {α β : Type} {x : Stage α} {f : α → Stage β} {b : β} :
    x.bind f = .done b ↔ ∃ a, x = .done a ∧ f a = .done b := by
  cases x <;> simp

/-- A sequence of two stages halts exactly when the first does, or the second after it. -/
theorem Stage.bind_eq_halt {α β : Type} {x : Stage α} {f : α → Stage β} {c : HaltCause} :
    x.bind f = .halt c ↔ x = .halt c ∨ ∃ a, x = .done a ∧ f a = .halt c := by
  cases x <;> simp

/-- A sequence of two stages faults exactly when the first does, or the second after it. -/
theorem Stage.bind_eq_fault {α β : Type} {x : Stage α} {f : α → Stage β} {r : Fault} :
    x.bind f = .fault r ↔ x = .fault r ∨ ∃ a, x = .done a ∧ f a = .fault r := by
  cases x <;> simp

/-! ### The memory primitives -/

theorem fetch_eq_done {m : Memory} {a w : Word} :
    fetch m a = .done w ↔ isFetchable a = true ∧ m.read (wordIndex a) = w := by
  cases h : isFetchable a <;> simp [fetch, h, eq_comm]

theorem fetch_eq_halt {m : Memory} {a : Word} {c : HaltCause} :
    fetch m a = .halt c ↔ isFetchable a = false ∧ c = .fetchAddress := by
  cases h : isFetchable a <;> simp [fetch, h, eq_comm]

/-- A fetch never meets the spec's fault. -/
theorem fetch_ne_fault {m : Memory} {a : Word} {r : Fault} : fetch m a ≠ .fault r := by
  cases h : isFetchable a <;> simp [fetch, h]

theorem memRead_eq_done {m : Memory} {a w : Word} :
    memRead m a = .done w ↔ isAligned a = true ∧ inMemory a = true ∧ m.read (wordIndex a) = w := by
  cases h : isAligned a <;> cases h' : inMemory a <;> simp [memRead, h, h', eq_comm]

theorem memRead_eq_halt {m : Memory} {a : Word} {c : HaltCause} :
    memRead m a = .halt c ↔ isAligned a = false ∧ c = .memAlign := by
  cases h : isAligned a <;> cases h' : inMemory a <;> simp [memRead, h, h', eq_comm]

theorem memRead_eq_fault {m : Memory} {a : Word} {r : Fault} :
    memRead m a = .fault r ↔ isAligned a = true ∧ inMemory a = false ∧ r = .dataAddressRange := by
  cases h : isAligned a <;> cases h' : inMemory a <;> simp [memRead, h, h', eq_comm]

theorem memWrite_eq_done {m m' : Memory} {a v : Word} :
    memWrite m a v = .done m' ↔ isAligned a = true ∧ inMemory a = true ∧ m.write (wordIndex a) v = m' := by
  cases h : isAligned a <;> cases h' : inMemory a <;> simp [memWrite, h, h', eq_comm]

theorem memWrite_eq_halt {m : Memory} {a v : Word} {c : HaltCause} :
    memWrite m a v = .halt c ↔ isAligned a = false ∧ c = .memAlign := by
  cases h : isAligned a <;> cases h' : inMemory a <;> simp [memWrite, h, h', eq_comm]

theorem memWrite_eq_fault {m : Memory} {a v : Word} {r : Fault} :
    memWrite m a v = .fault r ↔ isAligned a = true ∧ inMemory a = false ∧ r = .dataAddressRange := by
  cases h : isAligned a <;> cases h' : inMemory a <;> simp [memWrite, h, h', eq_comm]

/-- A store keeps the memory's canonical form. -/
theorem memWrite_wf {m m' : Memory} {a v : Word} (h : m.wf = true) (hw : memWrite m a v = .done m') :
    m'.wf = true := by
  obtain ⟨_, hin, rfl⟩ := memWrite_eq_done.1 hw
  exact Memory.write_wf h (wordIndex_lt hin)

/-! ### The step's end -/

@[simp] theorem endStep_done (s t : State) : endStep s (.done t) = .next t := rfl
@[simp] theorem endStep_halt (s : State) (c : HaltCause) : endStep s (.halt c) = .next (s.setRun .halted) := rfl
@[simp] theorem endStep_fault (s : State) (r : Fault) : endStep s (.fault r) = .fault r := rfl
@[simp] theorem takeHalt_eq (c : HaltCause) (s : State) : takeHalt c s = .next (s.setRun .halted) := rfl

/-- A step that answers a next state either completed with it or took a halt. -/
theorem endStep_eq_next {s t : State} {x : Stage State} :
    endStep s x = .next t ↔ x = .done t ∨ (∃ c, x = .halt c) ∧ t = s.setRun .halted := by
  cases x <;> simp [eq_comm]

theorem endStep_eq_fault {s : State} {x : Stage State} {r : Fault} : endStep s x = .fault r ↔ x = .fault r := by
  cases x <;> simp

/-- The end of a step refuses nothing. -/
theorem endStep_ne_refused {s : State} {x : Stage State} {r : Refusal} : endStep s x ≠ .refused r := by
  cases x <;> simp

end Sys2Proof.Machine
end

