-- ==== Sys2Proof/Laws/Bits.lean ====
section
/-!
SUPPORT. Bit-level facts: the sign extension, and the parts of a word under the opcode table's masks.
-/

namespace Sys2Proof.Machine

/-! ### Sign Extend -/

/-- The unit of R93 is two's-complement sign extension. -/
theorem signExtend_eq (v : Imm16) : signExtend v = v.signExtend 32 := by
  apply BitVec.eq_of_getLsbD_eq
  intro i hi
  rw [BitVec.getLsbD_signExtend]
  unfold signExtend
  cases h : v.getLsbD 15 <;> simp only [BitVec.msb_eq_getLsbD_last, h] <;> interval_cases i <;> simp_all

/-- Shifted up by 16, the extension bits are gone (R64, R85). -/
theorem signExtend_shift16_toNat (v : Imm16) : (signExtend v <<< 16).toNat = v.toNat * 65536 := by
  have hlt := v.isLt
  have : signExtend v <<< 16 = v.setWidth 32 <<< 16 := by
    apply BitVec.eq_of_getLsbD_eq
    intro i hi
    rw [signExtend_eq]
    by_cases h : i < 16
    · simp [h]
    · have h' : i - 16 < 16 := by omega
      rw [BitVec.getLsbD_shiftLeft, BitVec.getLsbD_shiftLeft, BitVec.getLsbD_signExtend]
      simp [h', hi]
  rw [this]
  simp [Nat.shiftLeft_eq]
  omega

/-- A shift by 16 keeps the low half alone, above sixteen zeros (R85). -/
theorem shift16_toNat (b : Word) : (b <<< 16).toNat = b.toNat % 65536 * 65536 := by
  simp [Nat.shiftLeft_eq]
  omega

/-! ### Words under the masks of the opcode table -/

/-- A word's opcode bits (the mask of every row but the R-type ones). -/
theorem and_opcodeMask (w : Word) : w &&& 0xFC000000 = (partition w).opcode.setWidth 32 <<< 26 := by
  apply BitVec.eq_of_getLsbD_eq
  intro i hi
  interval_cases i <;> simp [partition]

/-- A word's opcode and funct bits (the mask of the R-type rows). -/
theorem and_functMask (w : Word) :
    w &&& 0xFC00003F = ((partition w).opcode.setWidth 32 <<< 26) ||| (partition w).funct.setWidth 32 := by
  apply BitVec.eq_of_getLsbD_eq
  intro i hi
  interval_cases i <;> simp [partition]

/-- Masking bits 10:6 away leaves the fields of an R-type word as they are. -/
theorem partition_and_ignored (w : Word) :
    (partition (w &&& 0xFFFFF83F)).opcode = (partition w).opcode ∧
      (partition (w &&& 0xFFFFF83F)).rs = (partition w).rs ∧ (partition (w &&& 0xFFFFF83F)).rt = (partition w).rt ∧
      (partition (w &&& 0xFFFFF83F)).rd = (partition w).rd ∧
      (partition (w &&& 0xFFFFF83F)).funct = (partition w).funct := by
  refine ⟨?_, ?_, ?_, ?_, ?_⟩ <;>
    (apply BitVec.eq_of_getLsbD_eq; intro i hi; interval_cases i <;> simp [partition])

/-- The opcode and funct fields as numbers. -/
theorem partition_opcode_toNat (w : Word) : (partition w).opcode.toNat = w.toNat / 2 ^ 26 := by
  simp [partition, BitVec.extractLsb'_toNat, Nat.shiftRight_eq_div_pow]
  omega

theorem partition_funct_toNat (w : Word) : (partition w).funct.toNat = w.toNat % 64 := by
  simp [partition, BitVec.extractLsb'_toNat]

end Sys2Proof.Machine
end

