-- ==== Sys2Proof/Laws/Encoding.lean ====
section
/-!
SUPPORT. The maps of the decoder and the fields of an encoded word.
-/

namespace Sys2Proof

/-! ### The opcode map and the funct map are inverse to their codes -/

@[simp] theorem lookupOpcode_code (op : Opcode) : lookupOpcode op.code = some op := by
  cases op <;> rfl

@[simp] theorem lookupFunct_code (fn : Funct) : lookupFunct fn.code = some fn := by
  cases fn <;> rfl

theorem lookupOpcode_eq_some {v : Code6} {op : Opcode} : lookupOpcode v = some op ↔ v = op.code := by
  constructor
  · cases op <;> revert v <;> decide
  · rintro rfl; simp

theorem lookupFunct_eq_some {v : Code6} {fn : Funct} : lookupFunct v = some fn ↔ v = fn.code := by
  constructor
  · cases fn <;> revert v <;> decide
  · rintro rfl; simp

/-! ### The fields of a word built by the encoding formulas (R73 is the inverse of R61) -/

section
variable (c : Code6) (rs rt rd : RegIdx) (f : Code6) (imm : Imm16) (target : Target26)

theorem partition_formatR :
    partition ((c.setWidth 32 <<< 26) ||| (rs.setWidth 32 <<< 21) ||| (rt.setWidth 32 <<< 16)
      ||| (rd.setWidth 32 <<< 11) ||| f.setWidth 32) =
      { opcode := c, rs := rs, rt := rt, rd := rd, funct := f,
        imm := (rd.setWidth 16 <<< 11) ||| f.setWidth 16,
        target := (rs.setWidth 26 <<< 21) ||| (rt.setWidth 26 <<< 16) ||| (rd.setWidth 26 <<< 11) ||| f.setWidth 26 } := by
  simp only [partition, Fields.mk.injEq]
  refine ⟨?_, ?_, ?_, ?_, ?_, ?_, ?_⟩ <;>
    (apply BitVec.eq_of_getLsbD_eq; intro i hi; interval_cases i <;> simp)

theorem partition_formatI :
    partition ((c.setWidth 32 <<< 26) ||| (rs.setWidth 32 <<< 21) ||| (rt.setWidth 32 <<< 16) ||| imm.setWidth 32) =
      { opcode := c, rs := rs, rt := rt, rd := imm.extractLsb' 11 5, funct := imm.extractLsb' 0 6, imm := imm,
        target := (rs.setWidth 26 <<< 21) ||| (rt.setWidth 26 <<< 16) ||| imm.setWidth 26 } := by
  simp only [partition, Fields.mk.injEq]
  refine ⟨?_, ?_, ?_, ?_, ?_, ?_, ?_⟩ <;>
    (apply BitVec.eq_of_getLsbD_eq; intro i hi; interval_cases i <;> simp)

theorem partition_formatJ :
    partition ((c.setWidth 32 <<< 26) ||| target.setWidth 32) =
      { opcode := c, rs := target.extractLsb' 21 5, rt := target.extractLsb' 16 5, rd := target.extractLsb' 11 5,
        funct := target.extractLsb' 0 6, imm := target.extractLsb' 0 16, target := target } := by
  simp only [partition, Fields.mk.injEq]
  refine ⟨?_, ?_, ?_, ?_, ?_, ?_, ?_⟩ <;>
    (apply BitVec.eq_of_getLsbD_eq; intro i hi; interval_cases i <;> simp)

end

@[simp] theorem wordR_opcode (fn : Funct) (rs rt rd : RegIdx) :
    (partition (wordR fn rs rt rd)).opcode = Opcode.rType.code := by rw [wordR, partition_formatR]
@[simp] theorem wordR_rs (fn : Funct) (rs rt rd : RegIdx) : (partition (wordR fn rs rt rd)).rs = rs := by
  rw [wordR, partition_formatR]
@[simp] theorem wordR_rt (fn : Funct) (rs rt rd : RegIdx) : (partition (wordR fn rs rt rd)).rt = rt := by
  rw [wordR, partition_formatR]
@[simp] theorem wordR_rd (fn : Funct) (rs rt rd : RegIdx) : (partition (wordR fn rs rt rd)).rd = rd := by
  rw [wordR, partition_formatR]
@[simp] theorem wordR_funct (fn : Funct) (rs rt rd : RegIdx) : (partition (wordR fn rs rt rd)).funct = fn.code := by
  rw [wordR, partition_formatR]

@[simp] theorem wordI_opcode (op : Opcode) (rs rt : RegIdx) (imm : Imm16) :
    (partition (wordI op rs rt imm)).opcode = op.code := by rw [wordI, partition_formatI]
@[simp] theorem wordI_rs (op : Opcode) (rs rt : RegIdx) (imm : Imm16) :
    (partition (wordI op rs rt imm)).rs = rs := by rw [wordI, partition_formatI]
@[simp] theorem wordI_rt (op : Opcode) (rs rt : RegIdx) (imm : Imm16) :
    (partition (wordI op rs rt imm)).rt = rt := by rw [wordI, partition_formatI]
@[simp] theorem wordI_imm (op : Opcode) (rs rt : RegIdx) (imm : Imm16) :
    (partition (wordI op rs rt imm)).imm = imm := by rw [wordI, partition_formatI]

@[simp] theorem wordJ_opcode (target : Target26) : (partition (wordJ target)).opcode = Opcode.j.code := by
  rw [wordJ, partition_formatJ]
@[simp] theorem wordJ_target (target : Target26) : (partition (wordJ target)).target = target := by
  rw [wordJ, partition_formatJ]

/-! ### What a word decodes to -/

/-- A word decodes to an instruction exactly when its opcode has a row and the row gives that instruction. -/
theorem decode_eq_ok {w : Word} {i : Instr} :
    decode w = .ok i ↔ ∃ op, (partition w).opcode = op.code ∧ decodeRow op (partition w) = .ok i := by
  unfold decode
  cases h : lookupOpcode (partition w).opcode with
  | none =>
    refine ⟨fun e => by simp at e, ?_⟩
    rintro ⟨op, hop, -⟩
    rw [hop, lookupOpcode_code] at h
    cases h
  | some op =>
    rw [lookupOpcode_eq_some] at h
    refine ⟨fun e => ⟨op, h, e⟩, ?_⟩
    rintro ⟨op', hop', e⟩
    have : lookupOpcode op.code = lookupOpcode op'.code := by rw [← h, hop']
    simp only [lookupOpcode_code, Option.some.injEq] at this
    exact this ▸ e

/-- A word is rejected by the first level exactly when its opcode has no row, and by the second exactly when its opcode is
0x00 and its funct has no operation; it is rejected in no other way. -/
theorem decode_eq_error {w : Word} {c : HaltCause} :
    decode w = .error c ↔
      (lookupOpcode (partition w).opcode = none ∧ c = .decode) ∨
      ((partition w).opcode = Opcode.rType.code ∧ lookupFunct (partition w).funct = none ∧ c = .funct) := by
  unfold decode
  cases h : lookupOpcode (partition w).opcode with
  | none =>
    have hne : (partition w).opcode ≠ Opcode.rType.code := by
      intro e
      rw [e, lookupOpcode_code] at h
      cases h
    simp [hne, eq_comm]
  | some op =>
    rw [lookupOpcode_eq_some] at h
    rw [h]
    cases op <;> simp [decodeRow, Opcode.code]
    cases hf : lookupFunct (partition w).funct <;> simp [eq_comm]

/-- The row of the control table that a decoded instruction's word selects is the instruction's. -/
theorem opcode_of_decodeRow {op : Opcode} {f : Fields} {i : Instr} (h : decodeRow op f = .ok i) : i.opcode = op := by
  cases op <;> simp only [decodeRow, Except.ok.injEq] at h <;> try (subst h; rfl)
  cases hfn : lookupFunct f.funct with
  | none => simp [hfn] at h
  | some fn =>
    simp only [hfn, Except.ok.injEq] at h
    subst h
    cases fn <;> rfl

end Sys2Proof
end

