-- ==== Sys2Proof/Laws/PerInstr.lean ====
section
/-!
SUPPORT. Statements for all instructions, made per instruction: one lemma per constructor of Instr.
-/

namespace Sys2Proof.Laws.EncodedOpcode

/-- The opcode field of an instruction's word is the code of the control row it runs under. -/
def Statement (i : Instr) : Prop := (partition (encode i)).opcode = i.opcode.code

theorem add (rs rt rd : RegIdx) : Statement (.add rs rt rd) := wordR_opcode ..
theorem sub (rs rt rd : RegIdx) : Statement (.sub rs rt rd) := wordR_opcode ..
theorem slt (rs rt rd : RegIdx) : Statement (.slt rs rt rd) := wordR_opcode ..
theorem sltu (rs rt rd : RegIdx) : Statement (.sltu rs rt rd) := wordR_opcode ..
theorem and (rs rt rd : RegIdx) : Statement (.and rs rt rd) := wordR_opcode ..
theorem or (rs rt rd : RegIdx) : Statement (.or rs rt rd) := wordR_opcode ..
theorem shift (rs rt rd : RegIdx) : Statement (.shift rs rt rd) := wordR_opcode ..
theorem nor (rs rt rd : RegIdx) : Statement (.nor rs rt rd) := wordR_opcode ..
theorem addi (rs rt : RegIdx) (imm : Imm16) : Statement (.addi rs rt imm) := wordI_opcode ..
theorem andi (rs rt : RegIdx) (imm : Imm16) : Statement (.andi rs rt imm) := wordI_opcode ..
theorem ori (rs rt : RegIdx) (imm : Imm16) : Statement (.ori rs rt imm) := wordI_opcode ..
theorem slti (rs rt : RegIdx) (imm : Imm16) : Statement (.slti rs rt imm) := wordI_opcode ..
theorem sltiu (rs rt : RegIdx) (imm : Imm16) : Statement (.sltiu rs rt imm) := wordI_opcode ..
theorem lui (rs rt : RegIdx) (imm : Imm16) : Statement (.lui rs rt imm) := wordI_opcode ..
theorem lw (rs rt : RegIdx) (imm : Imm16) : Statement (.lw rs rt imm) := wordI_opcode ..
theorem sw (rs rt : RegIdx) (imm : Imm16) : Statement (.sw rs rt imm) := wordI_opcode ..
theorem beq (rs rt : RegIdx) (imm : Imm16) : Statement (.beq rs rt imm) := wordI_opcode ..
theorem bge (rs rt : RegIdx) (imm : Imm16) : Statement (.bge rs rt imm) := wordI_opcode ..
theorem j (target : Target26) : Statement (.j target) := wordJ_opcode ..

end Sys2Proof.Laws.EncodedOpcode
end

