-- ==== Sys2Proof/Laws/Units.lean ====
section
/-!
SUPPORT. The units of the datapath and the stages 4 to 9: what each can do, said once.
-/

namespace Sys2Proof.Machine

/-! ### Control signals, operands and the ALU -/

@[simp] theorem isAsserted_one : isAsserted .one = true := rfl
@[simp] theorem isAsserted_zero : isAsserted .zero = false := rfl
@[simp] theorem isAsserted_dontCare : isAsserted .dontCare = false := rfl

@[simp] theorem controlDecoder_code (op : Opcode) : controlDecoder op.code = .done (controlTable op) := by
  simp [controlDecoder]

/-- With ALUOp = 7 a supported funct gives its own selector. -/
@[simp] theorem resolveSelector_funct (fn : Funct) : resolveSelector .c7 fn.code = .done (functSelector fn) := by
  cases fn <;> rfl

/-- ALUOp = 7 with any other funct is the only way the wrapper halts. -/
theorem resolveSelector_eq_halt {op : AluCode} {v : Code6} {c : HaltCause} :
    resolveSelector op v = .halt c ↔ op = .c7 ∧ lookupFunct v = none ∧ c = .funct := by
  cases op <;> simp [resolveSelector]
  cases h : lookupFunct v <;> simp [eq_comm]

theorem resolveSelector_ne_fault {op : AluCode} {v : Code6} {r : Fault} : resolveSelector op v ≠ .fault r := by
  cases op <;> simp [resolveSelector]
  cases h : lookupFunct v <;> simp

@[simp] theorem aluResult_c0 (a b : Word) : aluResult a b .c0 = a + b := rfl
@[simp] theorem aluResult_c1 (a b : Word) : aluResult a b .c1 = a - b := rfl
@[simp] theorem aluResult_c2 (a b : Word) : aluResult a b .c2 = boolWord (decide (a.toInt < b.toInt)) := rfl
@[simp] theorem aluResult_c3 (a b : Word) : aluResult a b .c3 = boolWord (decide (a.toNat < b.toNat)) := rfl
@[simp] theorem aluResult_c4 (a b : Word) : aluResult a b .c4 = a &&& b := rfl
@[simp] theorem aluResult_c5 (a b : Word) : aluResult a b .c5 = a ||| b := rfl
@[simp] theorem aluResult_c6 (a b : Word) : aluResult a b .c6 = b <<< 16 := rfl
@[simp] theorem aluResult_c7 (a b : Word) : aluResult a b .c7 = ~~~a := rfl

@[simp] theorem alu_fst (a b : Word) (sel : AluCode) : (alu a b sel).1 = aluResult a b sel := rfl
@[simp] theorem alu_snd (a b : Word) (sel : AluCode) : (alu a b sel).2 = zeroFlag (aluResult a b sel) := rfl

theorem zeroFlag_iff (w : Word) : zeroFlag w = true ↔ w = 0 := by simp [zeroFlag]

@[simp] theorem boolWord_true : boolWord true = 1 := rfl
@[simp] theorem boolWord_false : boolWord false = 0 := rfl

/-! ### PC Update -/

/-- With neither Branch nor Jump asserted the pc goes 4 on (R27). -/
theorem pcUpdate_next {c : Control} (hj : isAsserted c.jump = false) (hb : isAsserted c.branch = false)
    (target : Target26) (extended : Word) (zero : Bool) (pc : Word) : pcUpdate c target extended zero pc = pc + 4#32 := by
  simp [pcUpdate, hj, hb]

/-- With Branch alone asserted, Zero decides (R101). -/
theorem pcUpdate_branch {c : Control} (hj : isAsserted c.jump = false) (hb : isAsserted c.branch = true)
    (target : Target26) (extended : Word) (zero : Bool) (pc : Word) :
    pcUpdate c target extended zero pc = if zero then pc + 4#32 + (extended <<< 2) else pc + 4#32 := by
  simp [pcUpdate, hj, hb, branchAddress]

/-! ### Memory Access -/

/-- What a Memory Access that goes on has done: the read, where one is asked for, and the write, where one is. -/
theorem memoryAccess_eq_done {c : Control} {a v : Word} {m m' : Memory} {d : Option Word} :
    memoryAccess c a v m = .done (d, m') ↔ loadStage c a m = .done d ∧ storeStage c a v m = .done m' := by
  unfold memoryAccess
  cases loadStage c a m <;> cases storeStage c a v m <;> simp

/-- With neither flag asserted no access is made and nothing halts (R97). -/
@[simp] theorem memoryAccess_none {c : Control} {a v : Word} {m : Memory} (hr : isAsserted c.memRead = false)
    (hw : isAsserted c.memWrite = false) : memoryAccess c a v m = .done (none, m) := by
  simp [memoryAccess, loadStage, storeStage, hr, hw]

/-- A store stage changes at most the one word at its address. -/
theorem storeStage_read_ne {c : Control} {a v : Word} {m m' : Memory} (h : storeStage c a v m = .done m') {k : Nat}
    (hk : isAsserted c.memWrite = true → wordIndex a ≠ k) : m'.read k = m.read k := by
  unfold storeStage at h
  split at h
  · obtain ⟨_, _, rfl⟩ := memWrite_eq_done.1 h
    exact Memory.read_write_ne (hk ‹_›)
  · cases h; rfl

/-- A store stage keeps the memory's canonical form. -/
theorem storeStage_wf {c : Control} {a v : Word} {m m' : Memory} (hm : m.wf = true)
    (h : storeStage c a v m = .done m') : m'.wf = true := by
  unfold storeStage at h
  split at h
  · exact memWrite_wf hm h
  · cases h; exact hm

/-! ### Register Write -/

/-- A Register Write that goes on has written one register, or none. -/
theorem registerWrite_eq_done {c : Control} {f : Fields} {d : Option Word} {r : Word} {s t : State}
    (h : registerWrite c f d r s = .done t) :
    (isAsserted c.regWrite = true ∧ ∃ v, t = s.setReg (destination c f) v) ∨
      (isAsserted c.regWrite = false ∧ t = s) := by
  unfold registerWrite at h
  split at h
  · refine .inl ⟨‹_›, ?_⟩
    split at h
    · cases d with
      | none => cases h
      | some w => cases h; exact ⟨w, rfl⟩
    · cases h; exact ⟨r, rfl⟩
  · cases h; exact .inr ⟨Bool.eq_false_iff.2 ‹_›, rfl⟩

/-- Register Write never halts. -/
theorem registerWrite_ne_halt {c : Control} {f : Fields} {d : Option Word} {r : Word} {s : State} {k : HaltCause} :
    registerWrite c f d r s ≠ .halt k := by
  unfold registerWrite
  repeat' split
  all_goals simp

/-! ### The stages 4 to 9 -/

/-- Stages that go on to the end: the selector was resolved, the accesses were made, a register was written or none, and
the pc was updated from the pc the step began with. -/
theorem runStages_eq_done {c : Control} {f : Fields} {s t : State} (h : runStages c f s = .done t) :
    ∃ sel d m u, resolveSelector c.aluOp f.funct = .done sel ∧
      loadStage c (aluResult (s.reg f.rs) (operandB c (s.reg f.rt) (signExtend f.imm)) sel) s.mem = .done d ∧
      storeStage c (aluResult (s.reg f.rs) (operandB c (s.reg f.rt) (signExtend f.imm)) sel) (s.reg f.rt) s.mem =
        .done m ∧
      registerWrite c f d (aluResult (s.reg f.rs) (operandB c (s.reg f.rt) (signExtend f.imm)) sel) (s.setMem m) =
        .done u ∧
      t = u.setPc (pcUpdate c f.target (signExtend f.imm)
        (zeroFlag (aluResult (s.reg f.rs) (operandB c (s.reg f.rt) (signExtend f.imm)) sel)) s.pc) := by
  simp only [runStages, aluOperations, Stage.bind_eq_done, Stage.done.injEq] at h
  obtain ⟨out, ⟨sel, hsel, rfl⟩, ⟨d, m⟩, hacc, u, hw, rfl⟩ := h
  obtain ⟨hl, hs⟩ := memoryAccess_eq_done.1 hacc
  exact ⟨sel, d, m, u, hsel, hl, hs, hw, rfl⟩

/-- What stages that go on to the end leave alone: the run state, every register but the destination, every word but the
one stored to, and the memory's canonical form. -/
theorem runStages_frame {c : Control} {f : Fields} {s t : State} (h : runStages c f s = .done t) :
    t.run = s.run ∧ (∀ r, (isAsserted c.regWrite = true → r ≠ destination c f) → t.reg r = s.reg r) ∧
      (isAsserted c.memWrite = false → t.mem = s.mem) ∧ (s.mem.wf = true → t.mem.wf = true) := by
  obtain ⟨sel, d, m, u, _, _, hs, hw, rfl⟩ := runStages_eq_done h
  refine ⟨?_, ?_, ?_, ?_⟩
  · rcases registerWrite_eq_done hw with ⟨_, v, rfl⟩ | ⟨_, rfl⟩ <;> simp
  · intro r hr
    rcases registerWrite_eq_done hw with ⟨ha, v, rfl⟩ | ⟨_, rfl⟩
    · simp [State.setReg_reg_ne _ _ _ _ (hr ha)]
    · simp
  · intro hm
    have : m = s.mem := by simpa [storeStage, hm, eq_comm] using hs
    rcases registerWrite_eq_done hw with ⟨_, v, rfl⟩ | ⟨_, rfl⟩ <;> simp [this]
  · intro hm
    have := storeStage_wf hm hs
    rcases registerWrite_eq_done hw with ⟨_, v, rfl⟩ | ⟨_, rfl⟩ <;> simpa using this

/-! ### The stages by the shape of the control row -/

section
variable {c : Control} {f : Fields} {s : State} {sel : AluCode}

/-- A row that makes no access and writes the ALU result to a register. -/
theorem runStages_register (hsel : resolveSelector c.aluOp f.funct = .done sel) (hr : isAsserted c.memRead = false)
    (hw : isAsserted c.memWrite = false) (hg : isAsserted c.regWrite = true) (hm : isAsserted c.memtoReg = false) :
    runStages c f s =
      .done ((s.setReg (destination c f)
          (aluResult (s.reg f.rs) (operandB c (s.reg f.rt) (signExtend f.imm)) sel)).setPc
        (pcUpdate c f.target (signExtend f.imm)
          (zeroFlag (aluResult (s.reg f.rs) (operandB c (s.reg f.rt) (signExtend f.imm)) sel)) s.pc)) := by
  simp [runStages, aluOperations, hsel, hr, hw, registerWrite, hg, hm]

/-- A row that makes no access and writes no register: only the pc changes. -/
theorem runStages_transfer (hsel : resolveSelector c.aluOp f.funct = .done sel) (hr : isAsserted c.memRead = false)
    (hw : isAsserted c.memWrite = false) (hg : isAsserted c.regWrite = false) :
    runStages c f s =
      .done (s.setPc (pcUpdate c f.target (signExtend f.imm)
          (zeroFlag (aluResult (s.reg f.rs) (operandB c (s.reg f.rt) (signExtend f.imm)) sel)) s.pc)) := by
  simp [runStages, aluOperations, hsel, hr, hw, registerWrite, hg]

/-- A row that reads memory and writes the loaded word to a register. -/
theorem runStages_load (hsel : resolveSelector c.aluOp f.funct = .done sel) (hr : isAsserted c.memRead = true)
    (hw : isAsserted c.memWrite = false) (hg : isAsserted c.regWrite = true) (hm : isAsserted c.memtoReg = true) :
    runStages c f s =
      (memRead s.mem (aluResult (s.reg f.rs) (operandB c (s.reg f.rt) (signExtend f.imm)) sel)).bind fun w =>
        .done ((s.setReg (destination c f) w).setPc (pcUpdate c f.target (signExtend f.imm)
          (zeroFlag (aluResult (s.reg f.rs) (operandB c (s.reg f.rt) (signExtend f.imm)) sel)) s.pc)) := by
  cases h : memRead s.mem (aluResult (s.reg f.rs) (operandB c (s.reg f.rt) (signExtend f.imm)) sel) <;>
    simp [runStages, aluOperations, memoryAccess, loadStage, storeStage, hsel, hr, hw, h, registerWrite, hg, hm]

/-- A row that writes memory and no register. -/
theorem runStages_store (hsel : resolveSelector c.aluOp f.funct = .done sel) (hr : isAsserted c.memRead = false)
    (hw : isAsserted c.memWrite = true) (hg : isAsserted c.regWrite = false) :
    runStages c f s =
      (memWrite s.mem (aluResult (s.reg f.rs) (operandB c (s.reg f.rt) (signExtend f.imm)) sel) (s.reg f.rt)).bind
        fun m => .done ((s.setMem m).setPc (pcUpdate c f.target (signExtend f.imm)
          (zeroFlag (aluResult (s.reg f.rs) (operandB c (s.reg f.rt) (signExtend f.imm)) sel)) s.pc)) := by
  cases h : memWrite s.mem (aluResult (s.reg f.rs) (operandB c (s.reg f.rt) (signExtend f.imm)) sel) (s.reg f.rt) <;>
    simp [runStages, aluOperations, memoryAccess, loadStage, storeStage, hsel, hr, hw, h, registerWrite, hg]

end

/-! ### One instruction -/

/-- The fields that a meaning hands to the datapath. -/
def fieldsOf : Instr → Fields
  | .add rs rt rd    => { rs := rs, rt := rt, rd := rd, funct := Funct.add.code }
  | .sub rs rt rd    => { rs := rs, rt := rt, rd := rd, funct := Funct.sub.code }
  | .slt rs rt rd    => { rs := rs, rt := rt, rd := rd, funct := Funct.slt.code }
  | .sltu rs rt rd   => { rs := rs, rt := rt, rd := rd, funct := Funct.sltu.code }
  | .and rs rt rd    => { rs := rs, rt := rt, rd := rd, funct := Funct.and.code }
  | .or rs rt rd     => { rs := rs, rt := rt, rd := rd, funct := Funct.or.code }
  | .shift rs rt rd  => { rs := rs, rt := rt, rd := rd, funct := Funct.shift.code }
  | .nor rs rt rd    => { rs := rs, rt := rt, rd := rd, funct := Funct.nor.code }
  | .addi rs rt imm  => { rs := rs, rt := rt, imm := imm }
  | .andi rs rt imm  => { rs := rs, rt := rt, imm := imm }
  | .ori rs rt imm   => { rs := rs, rt := rt, imm := imm }
  | .slti rs rt imm  => { rs := rs, rt := rt, imm := imm }
  | .sltiu rs rt imm => { rs := rs, rt := rt, imm := imm }
  | .lui rs rt imm   => { rs := rs, rt := rt, imm := imm }
  | .lw rs rt imm    => { rs := rs, rt := rt, imm := imm }
  | .sw rs rt imm    => { rs := rs, rt := rt, imm := imm }
  | .beq rs rt imm   => { rs := rs, rt := rt, imm := imm }
  | .bge rs rt imm   => { rs := rs, rt := rt, imm := imm }
  | .j target        => { target := target }

/-- Every instruction's meaning is the datapath under its control row, on its fields. -/
theorem exec_eq_runInstr (i : Instr) (s : State) : exec i s = runInstr i.opcode (fieldsOf i) s := by
  cases i <;> rfl

/-- An instruction that answers a next state went through its stages, or took a halt. -/
theorem exec_eq_next {i : Instr} {s t : State} (h : exec i s = .next t) :
    runStages (controlTable i.opcode) (fieldsOf i) s = .done t ∨
      ((∃ c, runStages (controlTable i.opcode) (fieldsOf i) s = .halt c) ∧ t = s.setRun .halted) := by
  rw [exec_eq_runInstr] at h
  exact endStep_eq_next.1 h

/-- The shape of `lw`: a read at the effective address, then the register and the pc. -/
theorem exec_lw_eq (rs rt : RegIdx) (imm : Imm16) (s : State) :
    exec (.lw rs rt imm) s = endStep s ((memRead s.mem (effectiveAddress s rs imm)).bind fun w =>
      .done ((s.setReg rt w).setPc (s.pc + 4#32))) := by
  rw [exec_eq_runInstr, runInstr, runStages_load (sel := .c0) rfl rfl rfl rfl rfl]
  simp only [pcUpdate_next (c := controlTable .lw) rfl rfl, Instr.opcode, aluResult_c0]
  rfl

/-- The shape of `sw`: a write of `x[rt]` at the effective address, then the pc. -/
theorem exec_sw_eq (rs rt : RegIdx) (imm : Imm16) (s : State) :
    exec (.sw rs rt imm) s = endStep s ((memWrite s.mem (effectiveAddress s rs imm) (s.reg rt)).bind fun m =>
      .done ((s.setMem m).setPc (s.pc + 4#32))) := by
  rw [exec_eq_runInstr, runInstr, runStages_store (sel := .c0) rfl rfl rfl rfl]
  simp only [pcUpdate_next (c := controlTable .sw) rfl rfl, Instr.opcode, aluResult_c0]
  rfl

/-- The shape of the two branches: Zero of the ALU decides the pc, and nothing else changes. -/
theorem exec_beq_eq (rs rt : RegIdx) (imm : Imm16) (s : State) :
    exec (.beq rs rt imm) s =
      .next (s.setPc (if zeroFlag (s.reg rs + signExtend imm) then s.pc + 4#32 + (signExtend imm <<< 2) else s.pc + 4#32)) := by
  rw [exec_eq_runInstr, runInstr, runStages_transfer (sel := .c0) rfl rfl rfl rfl, pcUpdate_branch rfl rfl,
    aluResult_c0, endStep_done]
  rfl

theorem exec_bge_eq (rs rt : RegIdx) (imm : Imm16) (s : State) :
    exec (.bge rs rt imm) s =
      .next (s.setPc (if zeroFlag (signExtend imm <<< 16) then s.pc + 4#32 + (signExtend imm <<< 2) else s.pc + 4#32)) := by
  rw [exec_eq_runInstr, runInstr, runStages_transfer (sel := .c6) rfl rfl rfl rfl, pcUpdate_branch rfl rfl,
    aluResult_c6, endStep_done]
  rfl

/-- No instruction is refused. -/
theorem exec_ne_refused {i : Instr} {s : State} {r : Refusal} : exec i s ≠ .refused r := by
  rw [exec_eq_runInstr]
  exact endStep_ne_refused

end Sys2Proof.Machine
end

