-- ==== Sys2Proof/Laws/Step.lean ====
section
/-!
SUPPORT. The step: what it can do, said once.
-/

namespace Sys2Proof.Machine

/-- A step that answers a next state was taken by a RUNNING machine, and either a halt was taken at the fetch or in the
decoder, or the fetched word's instruction answered that state. -/
theorem step_eq_next {s t : State} (h : step s = .next t) :
    s.run = .running ∧
      ((isFetchable s.pc = false ∧ t = s.setRun .halted) ∨
       (isFetchable s.pc = true ∧ (∃ c, decode (s.mem.read (wordIndex s.pc)) = .error c) ∧ t = s.setRun .halted) ∨
       (isFetchable s.pc = true ∧ ∃ i, decode (s.mem.read (wordIndex s.pc)) = .ok i ∧ exec i s = .next t)) := by
  unfold step at h
  cases hr : s.run with
  | halted => simp [hr] at h
  | running =>
    refine ⟨rfl, ?_⟩
    simp only [hr] at h
    cases hf : isFetchable s.pc with
    | false =>
      simp only [fetch, hf] at h
      simp at h
      exact .inl ⟨rfl, h.symm⟩
    | true =>
      simp only [fetch, hf, if_true] at h
      cases hd : decode (s.mem.read (wordIndex s.pc)) with
      | error c =>
        simp only [hd] at h
        simp at h
        exact .inr (.inl ⟨rfl, ⟨c, rfl⟩, h.symm⟩)
      | ok i =>
        simp only [hd] at h
        exact .inr (.inr ⟨rfl, i, rfl, h⟩)

/-- A step refuses nothing. -/
theorem step_ne_refused {s : State} {r : Refusal} : step s ≠ .refused r := by
  intro h
  unfold step at h
  cases hr : s.run with
  | halted => simp [hr] at h
  | running =>
    cases hf : fetch s.mem s.pc with
    | fault r' => simp [hr, hf] at h
    | halt c => simp [hr, hf] at h
    | done w =>
      cases hd : decode w with
      | error c => simp [hr, hf, hd] at h
      | ok i =>
        simp only [hr, hf, hd] at h
        exact exec_ne_refused h

/-- The state a program's word is placed in: RUNNING, with a pc that can be fetched from. -/
@[simp] theorem State.withFetchWord_run (s : State) (n w : Nat) : (s.withFetchWord n w).run = .running := rfl

theorem State.withFetchWord_fetchable (s : State) (n w : Nat) : isFetchable (s.withFetchWord n w).pc = true := by
  show isFetchable (if isFetchable s.pc then s.pc else 0) = true
  split
  · assumption
  · decide

end Sys2Proof.Machine
end

