-- ==== Sys2Proof/Tests/Slice0.lean ====
section
/-!
SUPPORT. Tests: expected results are the spec's own (spec/95_test_vectors.md and the examples of spec/41 to 44), never the
model's. Then, for every statement that has hypotheses, a concrete witness that meets them all together.
-/

namespace Sys2Proof.Tests

open Sys2Proof Sys2Proof.Machine

/-! ### Well-formedness: one ill-formed control row for each check, which the check refuses -/

/-- The row of `lw`, R90. -/
def goodRow : Control := ⟨.zero, .zero, .zero, .one, .one, .c0, .zero, .one, .one⟩

theorem test_wf_accepts_lw_row : goodRow.wellFormed = true := by decide
theorem test_wf_refuses_two_accesses : { goodRow with memWrite := .one }.wellFormed = false := by decide
theorem test_wf_refuses_unread_write_back : { goodRow with memRead := .dontCare }.wellFormed = false := by decide
theorem test_wf_refuses_branch_and_jump :
    { goodRow with branch := .one, jump := .one }.wellFormed = false := by decide
theorem test_wf_refuses_open_destination : { goodRow with regDst := .dontCare }.wellFormed = false := by decide

/-- An instruction under a table whose rows all make two accesses is ill-formed. -/
theorem test_wf_refuses_instr :
    Instr.wellFormed (fun _ => { goodRow with memWrite := .one }) (.lw 2 1 8) = false := by decide

/-! ### Decoding: each constructor's word, written bit by bit from R63, R66 and R67 -/

theorem test_decode_add : decode 0b000000_00001_00010_00011_00000_100000 = .ok (.add 1 2 3) := by rfl
theorem test_decode_sub : decode 0b000000_00001_00010_00011_00000_100010 = .ok (.sub 1 2 3) := by rfl
theorem test_decode_slt : decode 0b000000_00001_00010_00011_00000_101010 = .ok (.slt 1 2 3) := by rfl
theorem test_decode_sltu : decode 0b000000_00001_00010_00011_00000_101011 = .ok (.sltu 1 2 3) := by rfl
theorem test_decode_and : decode 0b000000_00001_00010_00011_00000_100100 = .ok (.and 1 2 3) := by rfl
theorem test_decode_or : decode 0b000000_00001_00010_00011_11111_100101 = .ok (.or 1 2 3) := by rfl
theorem test_decode_shift : decode 0b000000_00111_00010_00011_00000_000100 = .ok (.shift 7 2 3) := by rfl
theorem test_decode_nor : decode 0b000000_00001_00010_00011_00000_100111 = .ok (.nor 1 2 3) := by rfl
theorem test_decode_addi : decode 0b001000_00010_00001_1111111111111111 = .ok (.addi 2 1 0xFFFF) := by rfl
theorem test_decode_andi : decode 0b001100_00010_00001_1000000000000000 = .ok (.andi 2 1 0x8000) := by rfl
theorem test_decode_ori : decode 0b001101_00010_00001_0000000011111111 = .ok (.ori 2 1 0x00FF) := by rfl
theorem test_decode_slti : decode 0b001010_00010_00001_0000000000000001 = .ok (.slti 2 1 1) := by rfl
theorem test_decode_sltiu : decode 0b001011_00010_00001_0000000000000001 = .ok (.sltiu 2 1 1) := by rfl
theorem test_decode_lui : decode 0b001111_01001_00001_1000000000000001 = .ok (.lui 9 1 0x8001) := by rfl
theorem test_decode_lw : decode 0b100011_00010_00001_1111111111111100 = .ok (.lw 2 1 0xFFFC) := by rfl
theorem test_decode_sw : decode 0b101011_00010_00001_0000000000001000 = .ok (.sw 2 1 8) := by rfl
theorem test_decode_beq : decode 0b000100_00001_01001_0000000000000011 = .ok (.beq 1 9 3) := by rfl
theorem test_decode_bge : decode 0b000001_00001_00010_0000000000000101 = .ok (.bge 1 2 5) := by rfl
theorem test_decode_j : decode 0b000010_11111111111111111111111111 = .ok (.j 0x3FFFFFF) := by rfl

/-- The class of every code of either map, counted: 12 opcodes and 8 functs are supported (R66, R67). -/
theorem test_opcode_map_is_closed :
    ((List.range 64).filter fun n => (lookupOpcode (BitVec.ofNat 6 n)).isSome) =
      [0x00, 0x01, 0x02, 0x04, 0x08, 0x0a, 0x0b, 0x0c, 0x0d, 0x0f, 0x23, 0x2b] := by decide
theorem test_funct_map_is_closed :
    ((List.range 64).filter fun n => (lookupFunct (BitVec.ofNat 6 n)).isSome) =
      [4, 32, 34, 36, 37, 39, 42, 43] := by decide

/-- spec/95 §2.3, the row of 0x8C41FFFC. -/
theorem test_partition_lw_word :
    partition 0x8C41FFFC = ⟨0x23, 2, 1, 31, 0x3C, 0xFFFC, 0x041FFFC⟩ := by decide

/-! ### One step -/

/-- The state a step answers, if it answers one. -/
def nextOf (o : Host.Outcome State Fault Refusal) : Option State :=
  match o with
  | .next s => some s
  | .fault _ => none
  | .refused _ => none

/-- The fault a step ends in, if it ends in one. -/
def faultOf (o : Host.Outcome State Fault Refusal) : Option Fault :=
  match o with
  | .next _ => none
  | .fault r => some r
  | .refused _ => none

/-- A RUNNING state at a pc, with some registers set and the others 0, and some words of memory (by byte address). -/
def start (pc : Word) (regs : List (RegIdx × Word)) (mem : List (Word × Word)) : State :=
  let s := regs.foldl (fun s p => s.setReg p.1 p.2) (State.reset.setPc pc)
  s.setMem (mem.foldl (fun m p => m.write (wordIndex p.1) p.2) [])

/-- The state after one step of the word `w` from a state (it stands where the pc points). -/
def after (w : Nat) (s : State) : Option State := nextOf (step (s.withFetchWord 32 w))

def regAfter (w : Nat) (s : State) (r : RegIdx) : Option Word := (after w s).map (·.reg r)
def pcAfter (w : Nat) (s : State) : Option Word := (after w s).map (·.pc)
def memAfter (w : Nat) (s : State) (a : Word) : Option Word := (after w s).map (·.mem.read (wordIndex a))
def runAfter (w : Nat) (s : State) : Option RunState := (after w s).map (·.run)

/-! RT1 to RT21, spec/95 §2.6. -/

theorem test_add_rt4_source_is_destination :
    regAfter 0x00210820 (start 0x100 [(1, 0x80000001)] []) 1 = some 2 := by decide
theorem test_add_rt6_register_zero :
    regAfter 0x00220020 (start 0x100 [(1, 7), (2, 5)] []) 0 = some 0xC := by decide
theorem test_sub_rt7 : regAfter 0x00221822 (start 0x100 [(1, 5), (2, 7)] []) 3 = some 0xFFFFFFFE := by decide
theorem test_slt_rt11 :
    regAfter 0x0022182A (start 0x100 [(1, 0x80000000), (2, 0x7FFFFFFF)] []) 3 = some 1 := by decide
theorem test_slt_rt10 : regAfter 0x0022182A (start 0x100 [(1, 0), (2, 0xFFFFFFFF)] [] |>.setReg 3 9) 3 = some 0 := by decide
theorem test_sltu_rt12 :
    regAfter 0x0022182B (start 0x100 [(1, 0xFFFFFFFF), (2, 0), (3, 9)] []) 3 = some 0 := by decide
theorem test_sltu_rt13 : regAfter 0x0022182B (start 0x100 [(1, 0), (2, 0xFFFFFFFF)] []) 3 = some 1 := by decide
theorem test_and_rt14 :
    regAfter 0x00221824 (start 0x100 [(1, 0xFF00FF00), (2, 0x0FF00FF0)] []) 3 = some 0x0F000F00 := by decide
theorem test_or_rt15 :
    regAfter 0x00221825 (start 0x100 [(1, 0xFF00FF00), (2, 0x0FF00FF0)] []) 3 = some 0xFFF0FFF0 := by decide
theorem test_shift_rt17 :
    regAfter 0x00E21804 (start 0x100 [(2, 0x12345678), (7, 0xFFFFFFFF)] []) 3 = some 0x56780000 := by decide
theorem test_nor_rt20 :
    regAfter 0x00221827 (start 0x100 [(1, 0x0000FFFF), (2, 0xFFFFFFFF)] []) 3 = some 0xFFFF0000 := by decide
theorem test_pc_after_add : pcAfter 0x00221820 (start 0x100 [] []) = some 0x104 := by decide

/-! IM1 to IM19, spec/95 §2.7. -/

theorem test_addi_im2 : regAfter 0x2041FFFF (start 0x100 [(2, 10)] []) 1 = some 9 := by decide
theorem test_addi_im4_register_zero : regAfter 0x20000005 (start 0x100 [(0, 1)] []) 0 = some 6 := by decide
theorem test_andi_im6 : regAfter 0x30418000 (start 0x100 [(2, 0xFFFF9234)] []) 1 = some 0xFFFF8000 := by decide
theorem test_ori_im9 : regAfter 0x34418000 (start 0x100 [(2, 1)] []) 1 = some 0xFFFF8001 := by decide
theorem test_slti_im10 : regAfter 0x2841FFFF (start 0x100 [(2, 0xFFFFFFFE)] []) 1 = some 1 := by decide
theorem test_slti_im11 : regAfter 0x2841FFFF (start 0x100 [(1, 7), (2, 0)] []) 1 = some 0 := by decide
theorem test_sltiu_im13 : regAfter 0x2C41FFFF (start 0x100 [(2, 0)] []) 1 = some 1 := by decide
theorem test_sltiu_im14 : regAfter 0x2C410001 (start 0x100 [(1, 7), (2, 0x80000000)] []) 1 = some 0 := by decide
theorem test_lui_im18 : regAfter 0x3D218001 (start 0x100 [(9, 5)] []) 1 = some 0x80010000 := by decide

/-! LS1 to LS18, spec/95 §2.8. -/

theorem test_lw_ls6_last_word :
    regAfter 0x8C41FFFC (start 0x100 [(2, 0x10000)] [(0xFFFC, 0x77)]) 1 = some 0x77 := by decide
theorem test_lw_ls10_reads_code : regAfter 0x8C410000 (start 0 [] []) 1 = some 0x8C410000 := by decide
theorem test_lw_ls7_wraps_and_faults :
    faultOf (step ((start 0x100 [] []).withFetchWord 32 0x8C41FFFC)) = some .dataAddressRange := by decide
theorem test_lw_ls8_alignment_before_range :
    runAfter 0x8C410001 (start 0x100 [(2, 0x10000)] []) = some .halted := by decide
theorem test_sw_ls11 :
    memAfter 0xAC410008 (start 0x100 [(2, 0x100), (1, 0xDEADBEEF)] []) 0x108 = some 0xDEADBEEF := by decide
theorem test_sw_ls17_over_itself : memAfter 0xAC410000 (start 0 [(1, 0x1234)] []) 0 = some 0x1234 := by decide
theorem test_sw_ls15_faults :
    faultOf (step ((start 0x100 [(2, 0x10000)] []).withFetchWord 32 0xAC410000)) = some .dataAddressRange := by decide
theorem test_sw_ls14_halts_unchanged :
    after 0xAC410003 (start 0x100 [(2, 0x100)] []) =
      some (((start 0x100 [(2, 0x100)] []).withFetchWord 32 0xAC410003).setRun .halted) := by decide

/-! CT1 to CT16, spec/95 §2.9. -/

theorem test_beq_ct3_backward : pcAfter 0x1020FFFE (start 0x100 [(1, 2)] []) = some 0xFC := by decide
theorem test_beq_ct2_not_taken : pcAfter 0x10200003 (start 0x100 [(1, 3)] []) = some 0x104 := by decide
theorem test_beq_ct6_wraps : pcAfter 0x10208000 (start 0 [(1, 0x8000)] []) = some 0xFFFE0004 := by decide
theorem test_bge_ct10 : pcAfter 0x0422FFFF (start 0x100 [(1, 1)] []) = some 0x104 := by decide
theorem test_bge_ct8 : pcAfter 0x04000000 (start 0x100 [] []) = some 0x104 := by decide
theorem test_j_ct13 : pcAfter 0x0BFFFFFF (start 0x100 [] []) = some 0x0FFFFFFC := by decide
theorem test_j_ct16 : pcAfter 0x08234567 (start 0x100 [] []) = some 0x008D159C := by decide

/-! Halts: spec/95 §2.4, §2.5 and §2.10. -/

theorem test_fetch_last_word : regAfter 0x20010005 (start 0xFFFC [] []) 1 = some 5 := by decide
theorem test_fetch_s9 :
    nextOf (step (start 0x10000 [] [])) = some ((start 0x10000 [] []).setRun .halted) := by decide
theorem test_halt_hp1 : haltCause (start 0x10002 [] []) = some .fetchAddress := by decide
theorem test_halt_hp2 : haltCause (start 0 [] [(0, 0xFC00003F)]) = some .decode := by decide
theorem test_halt_hp3 : haltCause (start 0 [(2, 0x10000)] [(0, 0x8C410001)]) = some .memAlign := by decide
theorem test_halt_hp4 : haltCause (start 0 [(1, 1), (2, 2)] [(0, 0x00221821)]) = some .funct := by decide
theorem test_halt_hp5_none : haltCause (start 0 [] [(0, 0x20010003)]) = none := by decide
theorem test_reset_memory_halts : (nextOf (step State.reset)).map (·.run) = some .halted := by decide

/-! The host's interface on the source's own scenario S7, spec/95 Part 1. -/

/-- The launch of S7: PC=0, Mem[0] the word of `addi $1, $0, 5`, Reg[0]=0. -/
def s7 : State := launch (Vector.replicate 32 0) 0 [0x20010005]

theorem test_s7_launch_and_one_cycle :
    (nextOf (runCycles 1 s7)).map (fun t => (t.reg 1, t.pc, haltStatus t)) = some (5, 4, false) := by decide

/-- P4 of spec/95 Part 3: a jump out of memory; the third step halts, with the pc at 0x10000. -/
theorem test_p4_run :
    (nextOf (runCycles 9 (launch (Vector.replicate 32 0) 0 [0x20010001, 0x08004000]))).map
      (fun t => (t.reg 1, t.pc, haltStatus t)) = some (1, 0x10000, true) := by decide

/-! ### Witnesses: the hypotheses of each statement, met together -/

theorem witness_EncodeOfDecode_rType : decode 0x00221FE0 = .ok (.add 1 2 3) := by rfl
theorem witness_EncodeOfDecode_other : decode 0x0BFFFFFF = .ok (.j 0x3FFFFFF) := by rfl

theorem witness_IgnoredBits :
    (partition 0x00221FE0).opcode = 0x00 ∧ (0x00221FE0 : Word) &&& 0xFFFFF83F = 0x00221820 &&& 0xFFFFF83F := by decide

theorem witness_SignExtend_set : (0x8000 : Imm16).getLsbD 15 = true := by decide
theorem witness_SignExtend_clear : (0x7FFF : Imm16).getLsbD 15 = false := by decide

theorem witness_BothAccesses_aligned :
    { goodRow with memWrite := .one }.memRead = .one ∧ { goodRow with memWrite := .one }.memWrite = .one ∧
      (0xFFFC : Word).toNat % 4 = 0 ∧ (0xFFFC : Word).toNat ≤ 65535 := by decide
theorem witness_BothAccesses_misaligned :
    { goodRow with memWrite := .one }.memRead = .one ∧ { goodRow with memWrite := .one }.memWrite = .one ∧
      (1 : Word).toNat % 4 ≠ 0 := by decide

/-- The row of `lw` with the read taken out. -/
def unreadRow : Control := { goodRow with memRead := .zero }

theorem witness_WriteBack_no_store :
    unreadRow.regWrite = .one ∧ unreadRow.memtoReg = .one ∧ unreadRow.memRead ≠ .one ∧ unreadRow.aluOp ≠ .c7 ∧
      unreadRow.memWrite ≠ .one := by decide
theorem witness_WriteBack_funct :
    { unreadRow with aluOp := .c7 }.aluOp = .c7 ∧ ({ funct := 39 } : Fields).funct.toNat ∈ [32, 34, 42, 43, 36, 37, 4, 39] ∧
      { unreadRow with aluOp := .c7 }.memWrite ≠ .one := by decide
/-- A row that also stores, at the last word of the memory. -/
theorem witness_WriteBack_store :
    { unreadRow with memWrite := .one }.memRead ≠ .one ∧ { unreadRow with memWrite := .one }.memWrite = .one ∧
      aluOperations { unreadRow with memWrite := .one } 0 0x10000 0 (signExtend 0xFFFC) = .done (0xFFFC, false) ∧
      (0xFFFC : Word).toNat % 4 = 0 ∧ (0xFFFC : Word).toNat ≤ 65535 := by decide

theorem witness_JumpWins :
    { goodRow with jump := .one, branch := .one }.jump = .one ∧
      { goodRow with jump := .one, branch := .one }.branch = .one := by decide

theorem witness_PcUpdate_next : goodRow.jump ≠ .one ∧ ¬(goodRow.branch = .one ∧ true = true) := by decide
theorem witness_PcUpdate_branch :
    { goodRow with branch := .one }.jump ≠ .one ∧ { goodRow with branch := .one }.branch = .one ∧ true = true := by decide
theorem witness_PcUpdate_jump : { goodRow with jump := .one }.jump = .one := by decide

theorem witness_AlternativeRows :
    { config with beqRow := .asNamed, bgeRow := .asNamed }.beqRow = .asNamed ∧
      { config with beqRow := .asNamed, bgeRow := .asNamed }.bgeRow = .asNamed := by decide

theorem witness_Ori_extended : (0x8000 : Imm16).getLsbD 15 = true := by decide

theorem witness_Lw_last_word :
    ((start 0x100 [(2, 0x10000)] []).reg 2 + signExtend 0xFFFC).toNat % 4 = 0 ∧
      ((start 0x100 [(2, 0x10000)] []).reg 2 + signExtend 0xFFFC).toNat ≤ 65535 := by decide
theorem witness_Sw_last_word :
    ((start 0x100 [(2, 0x8000)] []).reg 2 + signExtend 0x7FFC).toNat % 4 = 0 ∧
      ((start 0x100 [(2, 0x8000)] []).reg 2 + signExtend 0x7FFC).toNat ≤ 65535 := by decide
theorem witness_Misaligned :
    ((start 0x100 [(2, 0x10000)] []).reg 2 + signExtend 1).toNat % 4 ≠ 0 := by decide
theorem witness_Misaligned_other :
    (∀ rs rt imm, Instr.j 0 ≠ .lw rs rt imm) ∧ (∀ rs rt imm, Instr.j 0 ≠ .sw rs rt imm) := by simp
theorem witness_Beyond_first :
    ((start 0x100 [(2, 0x10000)] []).reg 2 + signExtend 0).toNat % 4 = 0 ∧
      65535 < ((start 0x100 [(2, 0x10000)] []).reg 2 + signExtend 0).toNat := by decide
theorem witness_Beyond_wrapped :
    ((start 0x100 [] []).reg 2 + signExtend 0xFFFC).toNat % 4 = 0 ∧
      65535 < ((start 0x100 [] []).reg 2 + signExtend 0xFFFC).toNat := by decide

/-- The state before LS11 of spec/95, with the store's word at its pc, and the state after it. -/
def beforeStore : State := start 0x100 [(2, 0x100), (1, 0xDEADBEEF)] [(0x100, 0xAC410008)]
def afterStore : State := (beforeStore.setMem (beforeStore.mem.write 0x42 0xDEADBEEF)).setPc 0x104

theorem witness_StoreThenLoad :
    beforeStore.mem.wf = true ∧ beforeStore.run = .running ∧ nextOf (exec (.sw 2 1 8) beforeStore) = some afterStore ∧
      afterStore.run = .running ∧ afterStore.reg 2 + signExtend 8 = beforeStore.reg 2 + signExtend 8 := by decide

/-- P3 of spec/95, one step earlier: a `sw` at 0x08 stores the word of `addi $2, $0, 99` at 0x0C. -/
def beforeCodeStore : State := start 0x08 [(1, 0x20020063)] [(0x08, 0xAC01000C)]

theorem witness_StoreIsSeen :
    beforeCodeStore.mem.wf = true ∧ beforeCodeStore.run = .running ∧ beforeCodeStore.pc.toNat % 4 = 0 ∧
      beforeCodeStore.pc.toNat < 65532 ∧
      beforeCodeStore.reg 0 + signExtend 0x0C = beforeCodeStore.pc + 4 := by decide
theorem witness_StoreIsSeen_decodes :
    decode (beforeCodeStore.mem.read (beforeCodeStore.pc.toNat / 4)) = .ok (.sw 0 1 0x0C) ∧
      decode (beforeCodeStore.reg 1) = .ok (.addi 0 2 99) := ⟨rfl, rfl⟩
/-- The stored word may be none: with the all-zero word in `x[1]` the next step halts. -/
theorem witness_StoreIsSeen_no_instruction :
    decode ((start 0x08 [] [(0x08, 0xAC01000C)]).mem.read 2) = .ok (.sw 0 1 0x0C) ∧
      decode ((start 0x08 [] [(0x08, 0xAC01000C)]).reg 1) = .error .funct := ⟨rfl, rfl⟩

theorem witness_Jump_highest_pc : (start 65532 [] []).pc.toNat ≤ 65532 := by decide

theorem witness_frames_of_add : ∃ t, exec (.add 1 2 3) State.reset = .next t := ⟨_, rfl⟩
theorem witness_frames_of_sw : nextOf (exec (.sw 2 1 8) beforeStore) = some afterStore := by decide

theorem witness_StepRuns :
    beforeStore.run = .running ∧ beforeStore.pc.toNat % 4 = 0 ∧ beforeStore.pc.toNat ≤ 65535 ∧
      decode (beforeStore.mem.read (beforeStore.pc.toNat / 4)) = .ok (.sw 2 1 8) := ⟨rfl, rfl, by decide, rfl⟩

theorem witness_StepKeepsInvariants : beforeStore.Inv ∧ nextOf (step beforeStore) = some afterStore :=
  ⟨⟨by decide, by decide⟩, by decide⟩

theorem witness_BadFetch_range : (start 65536 [] []).run = .running ∧ (start 65536 [] []).pc.toNat > 65535 := by decide
theorem witness_BadFetch_alignment :
    (start 65535 [] []).run = .running ∧ (start 65535 [] []).pc.toNat % 4 ≠ 0 := by decide

theorem witness_UnsupportedOpcode :
    (start 65532 [] [(65532, 0xFC00003F)]).run = .running ∧ (start 65532 [] [(65532, 0xFC00003F)]).pc.toNat ≤ 65535 ∧
      (start 65532 [] [(65532, 0xFC00003F)]).pc.toNat % 4 = 0 ∧
      ((start 65532 [] [(65532, 0xFC00003F)]).mem.read ((start 65532 [] [(65532, 0xFC00003F)]).pc.toNat / 4)).toNat / 2 ^ 26
        ∉ [0x00, 0x01, 0x02, 0x04, 0x08, 0x0a, 0x0b, 0x0c, 0x0d, 0x0f, 0x23, 0x2b] := by decide
theorem witness_UnsupportedFunct :
    State.reset.run = .running ∧ State.reset.pc.toNat ≤ 65535 ∧ State.reset.pc.toNat % 4 = 0 ∧
      (State.reset.mem.read (State.reset.pc.toNat / 4)).toNat / 2 ^ 26 = 0 ∧
      (State.reset.mem.read (State.reset.pc.toNat / 4)).toNat % 64 ∉ [32, 34, 42, 43, 36, 37, 4, 39] := by decide

theorem witness_HaltChangesNothing :
    nextOf (step State.reset) = some (State.reset.setRun .halted) ∧ (State.reset.setRun .halted).run = .halted := by decide

theorem witness_HaltIsRaised : State.reset.run = .running ∧ cycleStages State.reset = .halt .funct := by decide

theorem witness_StepCompletes : beforeStore.run = .running := by decide
theorem witness_Halted : (State.reset.setRun .halted).run = .halted := by decide
theorem witness_Placed : beforeStore.mem.wf = true := by decide

theorem witness_Launch_full_image : (List.replicate 16384 (1 : Word)).length ≤ 16384 := by
  rw [List.length_replicate]
theorem witness_HostWrites : beforeStore.mem.wf = true ∧ 16383 < 16384 := by decide

/-- R173 case b: the step completes, and the run of one step ends RUNNING in its state. -/
theorem witness_Run_ends_running :
    s7.run = .running ∧ nextOf (step s7) = some ((s7.setReg 1 5).setPc 4) ∧
      nextOf (runCycles 1 s7) = some ((s7.setReg 1 5).setPc 4) ∧ ((s7.setReg 1 5).setPc 4).run = .running := by decide
theorem witness_Run_halted : (s7.setRun .halted).run = .halted := by decide
theorem witness_Run_halts : State.reset.run = .running ∧ haltCause State.reset ≠ none := by decide

/-- R157: a `lw` at 0x10000, the first aligned address beyond the memory. -/
theorem witness_Run_faults :
    (start 0 [(2, 0x10000)] [(0, 0x8C410000)]).run = .running ∧
      step (start 0 [(2, 0x10000)] [(0, 0x8C410000)]) = .fault .dataAddressRange := ⟨rfl, rfl⟩

end Sys2Proof.Tests
end

section
/-!
Register 0 (spec/10_state.md R22): it is written and read as every other register is.
-/

namespace Sys2Proof.Machine

/-- The shape of `addi` (R120): the wrapped sum goes to `x[rt]`, and the pc moves 4 on. -/
theorem exec_addi_eq (rs rt : RegIdx) (imm : Imm16) (s : State) :
    exec (.addi rs rt imm) s = .next ((s.setReg rt (s.reg rs + signExtend imm)).setPc (s.pc + 4#32)) := by
  rw [exec_eq_runInstr, runInstr, runStages_register (sel := .c0) rfl rfl rfl rfl rfl, pcUpdate_next rfl rfl,
    aluResult_c0, endStep_done]
  rfl

/-- Settles O45: the write primitive makes no exception of index 0, so neither does `addi`. -/
theorem registerZeroIsOrdinary : Obligations.RegisterZeroIsOrdinary := by
  refine ⟨fun s v => s.setReg_reg_same 0 v, fun rs imm s => ⟨_, exec_addi_eq rs 0 imm s, ?_⟩⟩
  rw [State.setPc_reg, State.setReg_reg_same]

end Sys2Proof.Machine
end

section
/-!
A fetch that cannot be done (spec/20_memory.md R41, R151): the halt, and what it does to the step.
-/

namespace Sys2Proof.Machine

/-- The negation of R41's condition, as the source words it: above 65535, or misaligned. -/
theorem isFetchable_false_iff (a : Word) : isFetchable a = false ↔ a.toNat > 65535 ∨ a.toNat % 4 ≠ 0 := by
  rw [← Bool.not_eq_true, isFetchable_iff]
  omega

/-- A halt of the fetch is taken in the state the step began in. -/
theorem step_of_fetch_halt {s : State} {c : HaltCause} (hr : s.run = .running) (hf : fetch s.mem s.pc = .halt c) :
    step s = .next (s.setRun .halted) := by
  simp only [step, hr, hf, takeHalt_eq]

/-- No later stage hides a halt of the fetch (R105). -/
theorem haltCause_of_fetch_halt {s : State} {c : HaltCause} (hf : fetch s.mem s.pc = .halt c) :
    haltCause s = some c := by
  simp only [haltCause, cycleStages, hf, Stage.bind_halt]

/-- Settles O50: the fetch splits on R41's condition, and its halt is the step's. -/
theorem badFetchAddressHalts : Obligations.BadFetchAddressHalts := by
  refine ⟨fun m a => ?_, fun s hr hbad => ?_⟩
  · split
    next hbad => exact fetch_eq_halt.2 ⟨(isFetchable_false_iff a).2 hbad, rfl⟩
    next hgood =>
      have hok : isFetchable a = true := by
        rwa [← isFetchable_false_iff, Bool.not_eq_false] at hgood
      exact fetch_eq_done.2 ⟨hok, by rw [wordIndex_eq]⟩
  · have hf : fetch s.mem s.pc = .halt .fetchAddress := fetch_eq_halt.2 ⟨(isFetchable_false_iff s.pc).2 hbad, rfl⟩
    exact ⟨step_of_fetch_halt hr hf, haltCause_of_fetch_halt hf⟩

end Sys2Proof.Machine
end

section
/-!
The instruction partition as arithmetic on the word's number (spec/30_encoding.md R61).
-/

namespace Sys2Proof.Machine

/-- A field of `n` bits that begins at bit `i`: the quotient by `2 ^ i`, modulo `2 ^ n`. -/
theorem extractLsb'_toNat_eq_div_mod (i n : Nat) (w : Word) : (w.extractLsb' i n).toNat = w.toNat / 2 ^ i % 2 ^ n := by
  rw [BitVec.extractLsb'_toNat, Nat.shiftRight_eq_div_pow]

/-- A field of the low `n` bits: the remainder by `2 ^ n`. -/
theorem extractLsb'_zero_toNat (n : Nat) (w : Word) : (w.extractLsb' 0 n).toNat = w.toNat % 2 ^ n := by
  rw [extractLsb'_toNat_eq_div_mod, pow_zero, Nat.div_one]

/-- Settles O5: each field is one cut, by its first bit and width; the opcode ends at bit 31, so its cut needs no remainder. -/
theorem fieldsAreCutByPosition : Obligations.FieldsAreCutByPosition := fun w =>
  ⟨partition_opcode_toNat w, extractLsb'_toNat_eq_div_mod 21 5 w, extractLsb'_toNat_eq_div_mod 16 5 w,
    extractLsb'_toNat_eq_div_mod 11 5 w, partition_funct_toNat w, extractLsb'_zero_toNat 16 w,
    extractLsb'_zero_toNat 26 w⟩

end Sys2Proof.Machine
end

section
/-!
Sign Extend, by the value of bit 15 and as a number (spec/40_datapath_units.md R93).
-/

namespace Sys2Proof.Machine

/-- A set bit 15 fills the upper half with ones. -/
theorem signExtend_of_sign_set {v : Imm16} (h : v.getLsbD 15 = true) :
    signExtend v = v.setWidth 32 ||| 0xFFFF0000 := if_pos h

/-- A clear bit 15 keeps only the low half. -/
theorem signExtend_of_sign_clear {v : Imm16} (h : v.getLsbD 15 = false) :
    signExtend v = v.setWidth 32 &&& 0x0000FFFF := if_neg (Bool.eq_false_iff.1 h)

/-- An immediate placed in a word has nothing above bit 15 for the low-half mask to clear. -/
theorem setWidth_and_lowHalf (v : Imm16) : v.setWidth 32 &&& 0x0000FFFF = (v.setWidth 32 : Word) := by
  apply BitVec.eq_of_toNat_eq
  have hmask : (0x0000FFFF : Word).toNat = 2 ^ 16 - 1 := rfl
  rw [BitVec.toNat_and, hmask, Nat.and_two_pow_sub_one_eq_mod, BitVec.toNat_setWidth]
  omega

/-- The extended value is the immediate's two's-complement number: widening by the sign keeps it. -/
theorem signExtend_toInt (v : Imm16) : (signExtend v).toInt = v.toInt := by
  rw [signExtend_eq, BitVec.toInt_signExtend_of_le (by decide)]

/-- Settles O11: one lemma per value of bit 15; where it is clear the mask changes nothing. -/
theorem signExtendFillsFromBit15 : Obligations.SignExtendFillsFromBit15 := fun v =>
  ⟨signExtend_of_sign_set,
    fun h => ⟨signExtend_of_sign_clear h, (signExtend_of_sign_clear h).trans (setWidth_and_lowHalf v)⟩,
    signExtend_toInt v⟩

end Sys2Proof.Machine
end

section
/-!
The register-immediate instructions (spec/42_immediate.md): one control row but for the ALU selector, so one effect but for
the ALU's operation.
-/

namespace Sys2Proof.Machine

/-- The row that R90 gives the six register-immediate opcodes, with the selector left open. -/
def immediateRow (sel : AluCode) : Control :=
  ⟨.zero, .zero, .zero, .zero, .zero, sel, .zero, .one, .one⟩

/-- Under such a row the ALU's result on `x[rs]` and the extended immediate goes to `x[rt]`, and the pc moves 4 on. -/
theorem runInstr_of_immediateRow {op : Opcode} {sel : AluCode} (hrow : controlTable op = immediateRow sel)
    (hsel : resolveSelector sel 0 = .done sel) (rs rt : RegIdx) (imm : Imm16) (s : State) :
    runInstr op { rs := rs, rt := rt, imm := imm } s =
      .next ((s.setReg rt (aluResult (s.reg rs) (signExtend imm) sel)).setPc (s.pc + 4#32)) := by
  rw [runInstr, hrow,
    runStages_register (c := immediateRow sel) (f := { rs := rs, rt := rt, imm := imm }) hsel rfl rfl rfl rfl,
    pcUpdate_next rfl rfl, endStep_done]
  rfl

/-- The shape of `ori` (R122): the disjunction with the extended immediate goes to `x[rt]`. -/
theorem exec_ori_eq (rs rt : RegIdx) (imm : Imm16) (s : State) :
    exec (.ori rs rt imm) s = .next ((s.setReg rt (s.reg rs ||| signExtend imm)).setPc (s.pc + 4#32)) :=
  runInstr_of_immediateRow (op := .ori) (sel := .c5) rfl rfl rs rt imm s

/-- The shape of `lui` (R125): the extended immediate, shifted up by 16, goes to `x[rt]`. -/
theorem exec_lui_eq (rs rt : RegIdx) (imm : Imm16) (s : State) :
    exec (.lui rs rt imm) s = .next ((s.setReg rt (signExtend imm <<< 16)).setPc (s.pc + 4#32)) :=
  runInstr_of_immediateRow (op := .lui) (sel := .c6) rfl rfl rs rt imm s

/-- With bit 15 set, the upper half of the extended immediate is all ones (R93). -/
theorem signExtend_upperHalf_of_sign_set {v : Imm16} (h : v.getLsbD 15 = true) :
    (signExtend v).extractLsb' 16 16 = BitVec.allOnes 16 := by
  have hones : (0xFFFF0000 : Word).extractLsb' 16 16 = BitVec.allOnes 16 := by decide
  rw [signExtend_of_sign_set h, BitVec.extractLsb'_or, hones, BitVec.or_allOnes]

/-- Settles O26: `addi` runs under the row with selector 0, the ALU's addition. -/
theorem addiWritesTheSum : Obligations.AddiWritesTheSum := fun rs rt imm s =>
  ⟨Laws.EncodedOpcode.addi rs rt imm, rfl, exec_addi_eq rs rt imm s⟩

/-- Settles O28: the ones that the extension puts in the upper half stay ones under a disjunction. -/
theorem oriWritesDisjunctionWithExtended : Obligations.OriWritesDisjunctionWithExtended := by
  refine fun rs rt imm s => ⟨Laws.EncodedOpcode.ori rs rt imm, rfl, exec_ori_eq rs rt imm s, fun hsign => ?_⟩
  rw [BitVec.extractLsb'_or, signExtend_upperHalf_of_sign_set hsign, BitVec.or_allOnes]
  rfl

/-- Settles O31: the value written is the shifted extension, whose number no longer holds the extension bits. -/
theorem luiWritesUpperImmediate : Obligations.LuiWritesUpperImmediate := fun rs rt imm s =>
  ⟨Laws.EncodedOpcode.lui rs rt imm, rfl, signExtend imm <<< 16, signExtend_shift16_toNat imm,
    exec_lui_eq rs rt imm s⟩

end Sys2Proof.Machine
end

section
/-!
The halts of the decoder (spec/60_exceptions.md R152, R153) and what a halt does (R155). The orchestrator's nine stages are
compared with the step through the decoder, so that a halt raised at a stage is the step's halt.
-/

namespace Sys2Proof.Machine

/-! ### The codes that no row has -/

/-- The opcode map has a row for the twelve codes of R66 alone. -/
theorem lookupOpcode_eq_none_iff (v : Code6) : lookupOpcode v = none ↔
    v.toNat ∉ [0x00, 0x01, 0x02, 0x04, 0x08, 0x0a, 0x0b, 0x0c, 0x0d, 0x0f, 0x23, 0x2b] := by
  revert v; decide

/-- The funct map has an operation for the eight codes of R67 alone. -/
theorem lookupFunct_eq_none_iff (v : Code6) : lookupFunct v = none ↔
    v.toNat ∉ [32, 34, 42, 43, 36, 37, 4, 39] := by
  revert v; decide

/-! ### The stages on the raw word's fields -/

/-- A word that the second level of the decoder rejects halts in the ALU-operations wrapper (R95), with the same cause. -/
theorem runStages_of_decodeRow_error {op : Opcode} {f : Fields} {c : HaltCause} (h : decodeRow op f = .error c)
    (s : State) : runStages (controlTable op) f s = .halt c := by
  cases op with
  | rType =>
    cases hfn : lookupFunct f.funct with
    | some fn => simp [decodeRow, hfn] at h
    | none =>
      obtain rfl : HaltCause.funct = c := by simpa [decodeRow, hfn] using h
      have hsel : resolveSelector (controlTable .rType).aluOp f.funct = .halt .funct :=
        resolveSelector_eq_halt.2 ⟨rfl, hfn, rfl⟩
      simp only [runStages, aluOperations, hsel, Stage.bind_halt]
  | addi | andi | ori | slti | sltiu | beq | lw | lui | sw | bge | j => cases h

/-- Under the row of `j` only the target field counts (R91). -/
theorem runStages_j (f : Fields) (s : State) :
    runStages (controlTable .j) f s = .done (s.setPc (jumpAddress s.pc f.target)) :=
  runStages_transfer (sel := .c0) rfl rfl rfl rfl

/-- The fields that a word holds beyond its instruction's own have no effect on the stages. -/
theorem runStages_of_decodeRow_ok {op : Opcode} {f : Fields} {i : Instr} (h : decodeRow op f = .ok i) (s : State) :
    runStages (controlTable op) f s = runStages (controlTable i.opcode) (fieldsOf i) s := by
  cases op with
  | rType =>
    cases hfn : lookupFunct f.funct with
    | none => simp [decodeRow, hfn] at h
    | some fn =>
      obtain rfl : rTypeInstr fn f.rs f.rt f.rd = i := by simpa [decodeRow, hfn] using h
      rw [lookupFunct_eq_some] at hfn
      cases fn <;> simp only [runStages, hfn] <;> rfl
  | j => cases h; rw [runStages_j]; exact (runStages_j _ s).symm
  | addi | andi | ori | slti | sltiu | beq | lw | lui | sw | bge => cases h; rfl

/-! ### The nine stages and the step -/

/-- A fetched word that does not decode halts the nine stages, by the cause that the decoder names. -/
theorem cycleStages_of_decode_error {s : State} {w : Word} {c : HaltCause} (hf : fetch s.mem s.pc = .done w)
    (hd : decode w = .error c) : cycleStages s = .halt c := by
  rw [cycleStages, hf, Stage.bind_done]
  unfold decode at hd
  cases hop : lookupOpcode (partition w).opcode with
  | none =>
    simp only [hop, Except.error.injEq] at hd
    simp only [controlDecoder, hop, Stage.bind_halt, hd]
  | some op =>
    simp only [hop] at hd
    simp only [controlDecoder, hop, Stage.bind_done, runStages_of_decodeRow_error hd s]

/-- On a fetched word that decodes, the nine stages are those of its instruction's meaning. -/
theorem cycleStages_of_decode_ok {s : State} {w : Word} {i : Instr} (hf : fetch s.mem s.pc = .done w)
    (hd : decode w = .ok i) : cycleStages s = runStages (controlTable i.opcode) (fieldsOf i) s := by
  obtain ⟨op, hop, hrow⟩ := decode_eq_ok.1 hd
  rw [cycleStages, hf, Stage.bind_done, hop, controlDecoder_code, Stage.bind_done, runStages_of_decodeRow_ok hrow s]

/-- The step of a RUNNING machine ends as its nine stages do (R104, R105). -/
theorem step_eq_endStep_cycleStages {s : State} (hr : s.run = .running) : step s = endStep s (cycleStages s) := by
  simp only [step, hr]
  cases hf : fetch s.mem s.pc with
  | halt c => simp only [cycleStages, hf, Stage.bind_halt, endStep]
  | fault r => exact absurd hf fetch_ne_fault
  | done w =>
    cases hd : decode w with
    | error c => simp only [hd, cycleStages_of_decode_error hf hd, endStep]
    | ok i => simp only [hd, cycleStages_of_decode_ok hf hd, exec_eq_runInstr, runInstr]

/-- A halt that a stage raises is taken in the state the step began in. -/
theorem step_of_cycleStages_halt {s : State} {c : HaltCause} (hr : s.run = .running) (h : cycleStages s = .halt c) :
    step s = .next (s.setRun .halted) := by
  rw [step_eq_endStep_cycleStages hr, h, endStep_halt]

/-- The cause that the host can work out is the one a stage raises. -/
theorem haltCause_of_cycleStages_halt {s : State} {c : HaltCause} (h : cycleStages s = .halt c) :
    haltCause s = some c := by
  rw [haltCause, h]

/-- Stages that go on to the end leave the run state alone. -/
theorem cycleStages_done_run {s t : State} (h : cycleStages s = .done t) : t.run = s.run := by
  simp only [cycleStages, Stage.bind_eq_done] at h
  obtain ⟨w, _, c, _, hstages⟩ := h
  exact (runStages_frame hstages).1

/-- A step that ends in HALTED was taken by a RUNNING machine, and is a halt: it did not complete. -/
theorem step_eq_next_halted {s t : State} (h : step s = .next t) (ht : t.run = .halted) :
    s.run = .running ∧ t = s.setRun .halted := by
  have hr : s.run = .running := (step_eq_next h).1
  rw [step_eq_endStep_cycleStages hr, endStep_eq_next] at h
  rcases h with hdone | ⟨_, hhalt⟩
  · rw [cycleStages_done_run hdone, hr] at ht
    cases ht
  · exact ⟨hr, hhalt⟩

/-- Settles O53: a halt at a stage is the step's halt, and nothing but a halt ends in HALTED. -/
theorem haltChangesNothingElse : Obligations.HaltChangesNothingElse := by
  refine ⟨fun s c hr h => ⟨_, step_of_cycleStages_halt hr h, rfl⟩, fun s t h ht => ?_⟩
  obtain ⟨hr, rfl⟩ := step_eq_next_halted h ht
  exact ⟨hr, rfl, rfl, rfl⟩

/-! ### The two halts of the decoder -/

/-- A pc within R41's bounds fetches the word at a quarter of it. -/
theorem fetch_of_bounds (m : Memory) {a : Word} (hle : a.toNat ≤ 65535) (hal : a.toNat % 4 = 0) :
    fetch m a = .done (m.read (a.toNat / 4)) :=
  fetch_eq_done.2 ⟨(isFetchable_iff a).2 ⟨hle, hal⟩, by rw [wordIndex_eq]⟩

/-- At a fetchable pc a word that does not decode halts the step, by the cause that the decoder names. -/
theorem step_halts_of_decode_error {s : State} {c : HaltCause} (hr : s.run = .running) (hle : s.pc.toNat ≤ 65535)
    (hal : s.pc.toNat % 4 = 0) (hd : decode (s.mem.read (s.pc.toNat / 4)) = .error c) :
    step s = .next (s.setRun .halted) ∧ haltCause s = some c :=
  have h : cycleStages s = .halt c := cycleStages_of_decode_error (fetch_of_bounds s.mem hle hal) hd
  ⟨step_of_cycleStages_halt hr h, haltCause_of_cycleStages_halt h⟩

/-- Settles O51: the first level of the decoder rejects the word, on its opcode bits alone. -/
theorem unsupportedOpcodeHalts : Obligations.UnsupportedOpcodeHalts := by
  intro s hr hle hal hop
  rw [← partition_opcode_toNat, ← lookupOpcode_eq_none_iff] at hop
  exact step_halts_of_decode_error hr hle hal (decode_eq_error.2 (.inl ⟨hop, rfl⟩))

/-- Settles O52: the second level of the decoder rejects the word, on its funct bits. -/
theorem unsupportedFunctHalts : Obligations.UnsupportedFunctHalts := by
  intro s hr hle hal hop hfn
  rw [← partition_opcode_toNat] at hop
  rw [← partition_funct_toNat, ← lookupFunct_eq_none_iff] at hfn
  exact step_halts_of_decode_error hr hle hal (decode_eq_error.2 (.inr ⟨BitVec.eq_of_toNat_eq hop, hfn, rfl⟩))

end Sys2Proof.Machine
end

section
/-!
Decoding against encoding (spec/30_encoding.md R61 to R73): what a word of each format decodes to, and what a decoded word
encodes back to.
-/

namespace Sys2Proof.Machine

/-! ### From an instruction to its word and back -/

/-- Once the opcode field is known, the second level of the decoder decides. -/
theorem decode_of_opcode {w : Word} {op : Opcode} (h : (partition w).opcode = op.code) :
    decode w = decodeRow op (partition w) := by
  rw [decode, h, lookupOpcode_code]

theorem decode_wordR (fn : Funct) (rs rt rd : RegIdx) : decode (wordR fn rs rt rd) = .ok (rTypeInstr fn rs rt rd) := by
  rw [decode_of_opcode (wordR_opcode fn rs rt rd)]
  simp [decodeRow]

/-- Settles O1: in each format the partition gives the operands back, and the opcode and funct maps invert their codes. -/
theorem decodeOfEncodeIsTheInstruction : Obligations.DecodeOfEncodeIsTheInstruction := by
  intro i
  cases i with
  | add rs rt rd => exact decode_wordR .add rs rt rd
  | sub rs rt rd => exact decode_wordR .sub rs rt rd
  | slt rs rt rd => exact decode_wordR .slt rs rt rd
  | sltu rs rt rd => exact decode_wordR .sltu rs rt rd
  | and rs rt rd => exact decode_wordR .and rs rt rd
  | or rs rt rd => exact decode_wordR .or rs rt rd
  | shift rs rt rd => exact decode_wordR .shift rs rt rd
  | nor rs rt rd => exact decode_wordR .nor rs rt rd
  | j target => rw [encode, decode_of_opcode (wordJ_opcode target), decodeRow, wordJ_target]
  | addi rs rt imm | andi rs rt imm | ori rs rt imm | slti rs rt imm | sltiu rs rt imm | lui rs rt imm | lw rs rt imm
  | sw rs rt imm | beq rs rt imm | bge rs rt imm =>
    rw [encode, decode_of_opcode (wordI_opcode _ rs rt imm), decodeRow, wordI_rs, wordI_rt, wordI_imm]

/-! ### From a word to its instruction and back -/

theorem encode_rTypeInstr (fn : Funct) (rs rt rd : RegIdx) : encode (rTypeInstr fn rs rt rd) = wordR fn rs rt rd := by
  cases fn <;> rfl

/-- The R format put together from a word's fields is the word without the bits 10:6 that no field holds. -/
theorem wordR_of_partition {w : Word} {fn : Funct} (hop : (partition w).opcode = Opcode.rType.code)
    (hfn : (partition w).funct = fn.code) :
    wordR fn (partition w).rs (partition w).rt (partition w).rd = w &&& 0xFFFFF83F := by
  rw [wordR, ← hop, ← hfn]
  apply BitVec.eq_of_getLsbD_eq
  intro i hi
  interval_cases i <;> simp [partition]

/-- The fields of the I format fill the word. -/
theorem wordI_of_partition {w : Word} {op : Opcode} (hop : (partition w).opcode = op.code) :
    wordI op (partition w).rs (partition w).rt (partition w).imm = w := by
  rw [wordI, ← hop]
  apply BitVec.eq_of_getLsbD_eq
  intro i hi
  interval_cases i <;> simp [partition]

/-- The fields of the J format fill the word. -/
theorem wordJ_of_partition {w : Word} (hop : (partition w).opcode = Opcode.j.code) : wordJ (partition w).target = w := by
  rw [wordJ, ← hop]
  apply BitVec.eq_of_getLsbD_eq
  intro i hi
  interval_cases i <;> simp [partition]

/-- Settles O2: a word's instruction holds all its fields, and the fields leave out bits 10:6 in the R format alone. -/
theorem encodeOfDecodeIsTheWordUpToIgnoredBits : Obligations.EncodeOfDecodeIsTheWordUpToIgnoredBits := by
  intro w i hd
  obtain ⟨op, hop, hrow⟩ := decode_eq_ok.1 hd
  cases op with
  | rType =>
    cases hfn : lookupFunct (partition w).funct with
    | none => simp [decodeRow, hfn] at hrow
    | some fn =>
      obtain rfl : rTypeInstr fn (partition w).rs (partition w).rt (partition w).rd = i := by
        simpa [decodeRow, hfn] using hrow
      rw [encode_rTypeInstr, wordR_of_partition hop (lookupFunct_eq_some.1 hfn)]
      exact (if_pos hop).symm
  | j =>
    cases hrow
    rw [encode, wordJ_of_partition hop, hop, if_neg (by decide)]
  | addi | andi | ori | slti | sltiu | beq | lw | lui | sw | bge =>
    cases hrow
    rw [encode, wordI_of_partition hop, hop, if_neg (by decide)]

/-- Settles O6: the partition and the two maps evaluate on a written word. -/
theorem wordsOfTheSpecDecode : Obligations.WordsOfTheSpecDecode :=
  ⟨rfl, rfl, rfl, rfl, rfl, rfl, rfl, rfl, rfl, rfl, rfl⟩

/-! ### The class of a word -/

/-- The first level of the decoder raises the decode halt alone, and it alone raises it. -/
theorem decode_eq_error_decode {w : Word} : decode w = .error .decode ↔ lookupOpcode (partition w).opcode = none := by
  simp [decode_eq_error]

theorem decode_eq_error_funct {w : Word} :
    decode w = .error .funct ↔ (partition w).opcode = Opcode.rType.code ∧ lookupFunct (partition w).funct = none := by
  simp [decode_eq_error]

/-- The halts of the fetch and of the data access are not the decoder's. -/
theorem decode_ne_fetchAddress (w : Word) : decode w ≠ .error .fetchAddress := by
  simp [decode_eq_error]

theorem decode_ne_memAlign (w : Word) : decode w ≠ .error .memAlign := by
  simp [decode_eq_error]

/-- The opcode of the R format, as a number. -/
theorem opcode_eq_rType_iff (w : Word) : (partition w).opcode = Opcode.rType.code ↔ w.toNat / 2 ^ 26 = 0 := by
  rw [← partition_opcode_toNat, ← BitVec.toNat_inj]
  rfl

/-- Settles O3: the two rejections are those of the two maps, on the fields as numbers. -/
theorem everyWordIsInOneClass : Obligations.EveryWordIsInOneClass := by
  intro w
  refine ⟨?_, ?_, decode_ne_fetchAddress w, decode_ne_memAlign w⟩
  · rw [decode_eq_error_decode, lookupOpcode_eq_none_iff, partition_opcode_toNat]
  · rw [decode_eq_error_funct, opcode_eq_rType_iff, lookupFunct_eq_none_iff, partition_funct_toNat]
    rfl

end Sys2Proof.Machine
end

section
/-!
The decoder against spec/opcode_table.json: the rows of the table are the entries of the funct map and of the opcode map.
-/

namespace Sys2Proof.Machine

/-! ### The table as the two maps -/

/-- The table's row of an operation under opcode 0x00. -/
def functRow (fn : Funct) : OpcodeRow := ⟨(rTypeInstr fn 0 0 0).mnemonic, fn.code.setWidth 32, 0xFC00003F⟩

/-- The table's row of an opcode that alone identifies its instruction, given by an instruction of that opcode. -/
def opcodeRow (i : Instr) : OpcodeRow := ⟨i.mnemonic, i.opcode.code.setWidth 32 <<< 26, 0xFC000000⟩

/-- The operations in the order of the table. -/
def tableFuncts : List Funct := [.add, .sub, .slt, .sltu, .and, .or, .shift, .nor]

/-- One instruction of each other row, in the order of the table. -/
def tableFormats : List Instr :=
  [.addi 0 0 0, .andi 0 0 0, .ori 0 0 0, .slti 0 0 0, .sltiu 0 0 0, .lui 0 0 0, .lw 0 0 0, .sw 0 0 0, .beq 0 0 0,
    .bge 0 0 0, .j 0]

theorem opcodeTable_eq : opcodeTable = tableFuncts.map functRow ++ tableFormats.map opcodeRow := by decide

/-! ### When a word is of a row -/

/-- A word is of an opcode's row exactly when the opcode map takes it there. -/
theorem and_opcodeMask_eq_iff (w : Word) (op : Opcode) :
    w &&& (0xFC000000 : Word) = op.code.setWidth 32 <<< 26 ↔ lookupOpcode (partition w).opcode = some op := by
  have hmask : w &&& (0xFC000000 : Word) = (partition w).opcode.setWidth 32 <<< 26 := and_opcodeMask w
  rw [hmask, lookupOpcode_eq_some]
  refine ⟨fun h => ?_, fun h => by rw [h]⟩
  have hn := congrArg BitVec.toNat h
  simp only [BitVec.toNat_shiftLeft, BitVec.toNat_setWidth, Nat.shiftLeft_eq] at hn
  apply BitVec.eq_of_toNat_eq
  omega

/-- The mask of the R-type rows keeps the opcode and the funct. -/
theorem partition_and_functMask (w : Word) :
    (partition (w &&& 0xFC00003F)).opcode = (partition w).opcode ∧
      (partition (w &&& 0xFC00003F)).funct = (partition w).funct := by
  refine ⟨?_, ?_⟩ <;> (apply BitVec.eq_of_getLsbD_eq; intro i hi; interval_cases i <;> simp [partition])

/-- A word is of an operation's row exactly when its opcode is 0x00 and the funct map takes it there. -/
theorem and_functMask_eq_iff (w : Word) (fn : Funct) :
    w &&& 0xFC00003F = fn.code.setWidth 32 ↔
      lookupOpcode (partition w).opcode = some .rType ∧ lookupFunct (partition w).funct = some fn := by
  rw [lookupOpcode_eq_some, lookupFunct_eq_some]
  constructor
  · intro h
    obtain ⟨hop, hfn⟩ := partition_and_functMask w
    rw [← hop, ← hfn, h]
    cases fn <;> decide
  · rintro ⟨hop, hfn⟩
    refine (and_functMask w).trans ?_
    rw [hop, hfn]
    cases fn <;> rfl

/-- The rows a word is of, by what the two maps say of its opcode and funct. -/
theorem tableMnemonics_eq (w : Word) :
    tableMnemonics w =
      (tableFuncts.filter fun fn => lookupOpcode (partition w).opcode = some .rType ∧
        lookupFunct (partition w).funct = some fn).map (fun fn => (rTypeInstr fn 0 0 0).mnemonic) ++
      (tableFormats.filter fun i => lookupOpcode (partition w).opcode = some i.opcode).map Instr.mnemonic := by
  simp only [tableMnemonics, opcodeTable_eq, List.filter_append, List.filter_map, List.map_append, List.map_map]
  congr 2
  · exact List.filter_congr fun fn _ => decide_eq_decide.2 (and_functMask_eq_iff w fn)
  · exact List.filter_congr fun i _ => decide_eq_decide.2 (and_opcodeMask_eq_iff w i.opcode)

/-- Settles O4: each entry of the two maps selects one row of the table, and a code outside them none. -/
theorem decoderAgreesWithOpcodeTable : Obligations.DecoderAgreesWithOpcodeTable := by
  intro w
  rw [tableMnemonics_eq, decode]
  cases lookupOpcode (partition w).opcode with
  | none => simp
  | some op =>
    cases op with
    | rType =>
      simp only [decodeRow]
      cases lookupFunct (partition w).funct with
      | none => rfl
      | some fn => cases fn <;> rfl
    | addi | andi | ori | slti | sltiu | beq | lw | lui | sw | bge | j => rfl

end Sys2Proof.Machine
end

section
/-!
The units on their own: the ALU, PC Update, Memory Access and Register Write, and the rows of the control table
(spec/40_datapath_units.md).
-/

namespace Sys2Proof.Machine

/-! ### The control table -/

/-- Each row of R90 passes the checks of R98, R99, R103 and U5. -/
theorem controlTable_wellFormed (op : Opcode) : (controlTable op).wellFormed = true := by
  cases op <;> rfl

/-- Settles O7: an instruction runs under a row of the table, and every row passes. -/
theorem everyInstructionIsWellFormed : Obligations.EveryInstructionIsWellFormed :=
  fun i => controlTable_wellFormed i.opcode

/-- R98: no row makes two accesses. -/
theorem controlTable_oneAccess (op : Opcode) :
    ¬((controlTable op).memRead = .one ∧ (controlTable op).memWrite = .one) := by
  cases op <;> decide

/-- R99: a row that writes back the memory output makes a read. -/
theorem controlTable_writeBackIsRead (op : Opcode) :
    ¬((controlTable op).regWrite = .one ∧ (controlTable op).memtoReg = .one ∧ (controlTable op).memRead ≠ .one) := by
  cases op <;> decide

/-- R103: no row branches and jumps at once. -/
theorem controlTable_oneTransfer (op : Opcode) : ¬((controlTable op).jump = .one ∧ (controlTable op).branch = .one) := by
  cases op <;> decide

theorem isAsserted_iff (v : Signal) : isAsserted v = true ↔ v = .one := by
  simp [isAsserted]

theorem isAsserted_false_iff (v : Signal) : isAsserted v = false ↔ v ≠ .one := by
  simp [isAsserted]

/-- Settles O12: `beq` and `sw` write no register, so what would be written and where is not looked at; of the row of `j`
PC Update looks at Jump alone. -/
theorem dontCaresAreUnobservable : Obligations.DontCaresAreUnobservable := by
  intro u v w x f s
  refine ⟨?_, ?_, ?_⟩
  · rw [runStages_transfer (c := controlTable .beq) (sel := .c0) rfl rfl rfl rfl]
    exact runStages_transfer (sel := .c0) rfl rfl rfl rfl
  · rw [runStages_store (c := controlTable .sw) (sel := .c0) rfl rfl rfl rfl]
    exact runStages_store (sel := .c0) rfl rfl rfl rfl
  · rw [runStages_j]
    exact runStages_transfer (sel := .c0) rfl rfl rfl rfl

/-! ### The ALU -/

/-- Settles O9: the flag is the comparison of the result with 0, whatever the selector. -/
theorem zeroFlagTellsResultIsZero : Obligations.ZeroFlagTellsResultIsZero :=
  fun a b sel => zeroFlag_iff (aluResult a b sel)

/-- A comparison's result as a word, for a condition that is not yet a Boolean. -/
theorem boolWord_decide (p : Prop) [Decidable p] : boolWord (decide p) = if p then 1 else 0 := by
  by_cases h : p <;> simp [h]

/-- A word's difference wraps as the integers' difference does modulo 2^32 (R83). -/
theorem sub_toNat_eq_emod (a b : Word) : ((a - b).toNat : Int) = ((a.toNat : Int) - b.toNat) % 2 ^ 32 := by
  have ha := a.isLt
  have hb := b.isLt
  rw [BitVec.toNat_sub]
  omega

/-- Settles O10: a row at a time. -/
theorem aluSelectorsComputeTheTable : Obligations.AluSelectorsComputeTheTable := fun a b =>
  ⟨BitVec.toNat_add a b, sub_toNat_eq_emod a b, boolWord_decide _, boolWord_decide _, fun _ => BitVec.getLsbD_and,
    fun _ => BitVec.getLsbD_or, shift16_toNat b, BitVec.toNat_not⟩

/-! ### Memory Access -/

/-- A read at an aligned address of the memory, by the address's number. -/
theorem memRead_of_bounds (m : Memory) {a : Word} (hal : a.toNat % 4 = 0) (hle : a.toNat ≤ 65535) :
    memRead m a = .done (m.read (a.toNat / 4)) :=
  memRead_eq_done.2 ⟨(isAligned_iff a).2 hal, (inMemory_iff a).2 hle, by rw [wordIndex_eq]⟩

theorem memRead_of_misaligned (m : Memory) {a : Word} (hal : a.toNat % 4 ≠ 0) : memRead m a = .halt .memAlign :=
  memRead_eq_halt.2 ⟨(isAligned_false_iff a).2 hal, rfl⟩

/-- A write at an aligned address of the memory, by the address's number. -/
theorem memWrite_of_bounds (m : Memory) {a : Word} (v : Word) (hal : a.toNat % 4 = 0) (hle : a.toNat ≤ 65535) :
    memWrite m a v = .done (m.write (a.toNat / 4) v) :=
  memWrite_eq_done.2 ⟨(isAligned_iff a).2 hal, (inMemory_iff a).2 hle, by rw [wordIndex_eq]⟩

theorem memWrite_of_misaligned (m : Memory) {a : Word} (v : Word) (hal : a.toNat % 4 ≠ 0) :
    memWrite m a v = .halt .memAlign :=
  memWrite_eq_halt.2 ⟨(isAligned_false_iff a).2 hal, rfl⟩

/-- With both flags asserted the unit is the read primitive and then the write primitive, both on the memory as it was. -/
theorem memoryAccess_both {c : Control} (hr : c.memRead = .one) (hw : c.memWrite = .one) (a v : Word) (m : Memory) :
    memoryAccess c a v m = (memRead m a).bind fun w => (memWrite m a v).bind fun m' => .done (some w, m') := by
  cases h : memRead m a <;> simp [memoryAccess, loadStage, storeStage, hr, hw, h]

/-- Settles O13: the two primitives agree on when they go on, so the read's outcome decides. -/
theorem bothAccessesAreReadThenWrite : Obligations.BothAccessesAreReadThenWrite := by
  refine ⟨fun c a v m hr hw => ⟨fun hal hle => ?_, fun hal => ?_⟩, controlTable_oneAccess⟩
  · rw [memoryAccess_both hr hw, memRead_of_bounds m hal hle, memWrite_of_bounds m v hal hle]
    rfl
  · rw [memoryAccess_both hr hw, memRead_of_misaligned m hal]
    rfl

/-! ### Register Write -/

/-- The selector is resolved unless it comes from a funct that the map lacks. -/
theorem exists_resolveSelector {aluOp : AluCode} {funct : Code6} (h : aluOp ≠ .c7 ∨ lookupFunct funct ≠ none) :
    ∃ sel, resolveSelector aluOp funct = .done sel := by
  cases hsel : resolveSelector aluOp funct with
  | done sel => exact ⟨sel, rfl⟩
  | halt c =>
    obtain ⟨rfl, hfn, -⟩ := resolveSelector_eq_halt.1 hsel
    exact absurd hfn (h.resolve_left fun hne => hne rfl)
  | fault r => exact absurd hsel resolveSelector_ne_fault

/-- A store stage goes on when no store is asked for, or the address is good. -/
theorem exists_storeStage {c : Control} {a : Word} (v : Word) (m : Memory)
    (h : c.memWrite = .one → a.toNat % 4 = 0 ∧ a.toNat ≤ 65535) : ∃ m', storeStage c a v m = .done m' := by
  unfold storeStage
  split
  next hw =>
    obtain ⟨hal, hle⟩ := h ((isAsserted_iff _).1 hw)
    exact ⟨_, memWrite_of_bounds m v hal hle⟩
  next => exact ⟨m, rfl⟩

/-- R99: writing back a memory output that no read made is the spec's fault. -/
theorem registerWrite_without_read {c : Control} (hg : c.regWrite = .one) (hm : c.memtoReg = .one) (f : Fields)
    (r : Word) (s : State) : registerWrite c f none r s = .fault .memdataUndefined := by
  simp [registerWrite, hg, hm]

/-- Settles O14: the ALU stage goes on, a Memory Access without a read goes on with no `memdata`, and Register Write faults
on that. -/
theorem writeBackWithoutReadFaults : Obligations.WriteBackWithoutReadFaults := by
  refine ⟨fun c f s hg hm hr hop => ?_, controlTable_writeBackIsRead⟩
  have hfn : c.aluOp ≠ .c7 ∨ lookupFunct f.funct ≠ none :=
    hop.imp_right fun h hnone => (lookupFunct_eq_none_iff _).1 hnone h
  obtain ⟨sel, hsel⟩ := exists_resolveSelector hfn
  refine ⟨alu (s.reg f.rs) (operandB c (s.reg f.rt) (signExtend f.imm)) sel, by simp [aluOperations, hsel], fun hst => ?_⟩
  obtain ⟨m', hstore⟩ := exists_storeStage (s.reg f.rt) s.mem hst
  have hload : loadStage c (alu (s.reg f.rs) (operandB c (s.reg f.rt) (signExtend f.imm)) sel).1 s.mem = .done none := by
    rw [loadStage, (isAsserted_false_iff _).2 hr]
    rfl
  simp only [runStages, aluOperations, hsel, Stage.bind_done, memoryAccess_eq_done.2 ⟨hload, hstore⟩,
    registerWrite_without_read hg hm, Stage.bind_fault]

/-! ### PC Update -/

/-- With Jump asserted nothing else is looked at (R103). -/
theorem pcUpdate_jump {c : Control} (hj : c.jump = .one) (target : Target26) (extended : Word) (zero : Bool) (pc : Word) :
    pcUpdate c target extended zero pc = jumpAddress pc target := by
  simp [pcUpdate, hj]

/-- Settles O15: PC Update asks for the jump first. -/
theorem jumpWinsOverBranch : Obligations.JumpWinsOverBranch :=
  ⟨fun _ target extended pc zero hj _ => pcUpdate_jump hj target extended zero pc, controlTable_oneTransfer⟩

/-- The mask of the jump address keeps the top four bits (R102). -/
theorem and_topBits_toNat (w : Word) : (w &&& (0xF0000000 : Word)).toNat = 2 ^ 28 * (w.toNat / 2 ^ 28) := by
  have hshift : w &&& (0xF0000000 : Word) = w >>> 28 <<< 28 := by
    apply BitVec.eq_of_getLsbD_eq
    intro i hi
    interval_cases i <;> simp
  rw [hshift, BitVec.toNat_shiftLeft, BitVec.toNat_ushiftRight, Nat.shiftRight_eq_div_pow, Nat.shiftLeft_eq]
  omega

/-- The jump address as a number: the target's 28 bits lie below the four of the incremented pc. -/
theorem jumpAddress_toNat (pc : Word) (target : Target26) :
    (jumpAddress pc target).toNat = (pc + 4#32).toNat / 2 ^ 28 * 2 ^ 28 + target.toNat * 4 := by
  have ht : ((target.setWidth 32 : Word) <<< 2).toNat = target.toNat * 4 := by
    rw [BitVec.toNat_shiftLeft, BitVec.toNat_setWidth, Nat.shiftLeft_eq]
    omega
  have hlt : target.toNat * 4 < 2 ^ 28 := by omega
  rw [jumpAddress, BitVec.toNat_or, ht, and_topBits_toNat, Nat.or_comm, ← Nat.two_pow_add_eq_or_of_lt hlt, Nat.mul_comm]

/-- The branch address as a number: four times the signed immediate past the incremented pc, modulo 2^32. -/
theorem branchAddress_toNat (pc : Word) (imm : Imm16) :
    ((branchAddress pc (signExtend imm)).toNat : Int) = ((pc.toNat : Int) + 4 + 4 * imm.toInt) % 2 ^ 32 := by
  have hext : (imm.toInt - (signExtend imm).toNat) % 2 ^ 32 = 0 := by
    rw [← signExtend_toInt, BitVec.toInt_eq_toNat_cond]
    split <;> omega
  rw [branchAddress, BitVec.toNat_add, BitVec.toNat_add, BitVec.toNat_shiftLeft, Nat.shiftLeft_eq]
  simp only [BitVec.toNat_ofNat]
  omega

/-- Settles O16: the three ways of PC Update, each by its address as a number. -/
theorem pcUpdateComputesTheAddresses : Obligations.PcUpdateComputesTheAddresses := by
  refine fun c target imm zero pc => ⟨fun hj hb => ?_, fun hj hb hz => ?_, fun hj => ?_⟩
  · have hnext : pcUpdate c target (signExtend imm) zero pc = pc + 4#32 := by
      simp [pcUpdate, isAsserted, hj, hb]
    rw [hnext, BitVec.toNat_add]
    rfl
  · rw [pcUpdate_branch ((isAsserted_false_iff _).2 hj) ((isAsserted_iff _).2 hb), if_pos hz]
    exact branchAddress_toNat pc imm
  · rw [pcUpdate_jump hj, jumpAddress_toNat, BitVec.toNat_add]
    rfl

end Sys2Proof.Machine
end

section
/-!
The register-register instructions (spec/41_rtype.md): one control row, so one effect but for the operation that the funct
chooses. Then the register-immediate ones that are left (spec/42_immediate.md).
-/

namespace Sys2Proof.Machine

/-- The shape of the eight: the ALU's result on `x[rs]` and `x[rt]` goes to `x[rd]`, and the pc moves 4 on. -/
theorem exec_rTypeInstr_eq (fn : Funct) (rs rt rd : RegIdx) (s : State) :
    exec (rTypeInstr fn rs rt rd) s =
      .next ((s.setReg rd (aluResult (s.reg rs) (s.reg rt) (functSelector fn))).setPc (s.pc + 4#32)) := by
  have hexec : exec (rTypeInstr fn rs rt rd) s = runInstr .rType { rs := rs, rt := rt, rd := rd, funct := fn.code } s := by
    cases fn <;> rfl
  rw [hexec, runInstr,
    runStages_register (c := controlTable .rType) (f := { rs := rs, rt := rt, rd := rd, funct := fn.code })
      (resolveSelector_funct fn) rfl rfl rfl rfl, pcUpdate_next rfl rfl, endStep_done]
  rfl

/-- Settles O18: funct 32 selects the ALU's addition. -/
theorem addWritesTheSum : Obligations.AddWritesTheSum := fun rs rt rd s =>
  ⟨wordR_funct .add rs rt rd, exec_rTypeInstr_eq .add rs rt rd s⟩

/-- Settles O19: funct 34 selects the ALU's subtraction. -/
theorem subWritesTheDifference : Obligations.SubWritesTheDifference := fun rs rt rd s =>
  ⟨wordR_funct .sub rs rt rd, exec_rTypeInstr_eq .sub rs rt rd s⟩

/-- Settles O20: funct 42 selects the ALU's signed comparison. -/
theorem sltWritesSignedLessThan : Obligations.SltWritesSignedLessThan := by
  refine fun rs rt rd s => ⟨wordR_funct .slt rs rt rd, (exec_rTypeInstr_eq .slt rs rt rd s).trans ?_⟩
  rw [functSelector, aluResult_c2, boolWord_decide]

/-- Settles O21: funct 43 selects the ALU's unsigned comparison. -/
theorem sltuWritesUnsignedLessThan : Obligations.SltuWritesUnsignedLessThan := by
  refine fun rs rt rd s => ⟨wordR_funct .sltu rs rt rd, (exec_rTypeInstr_eq .sltu rs rt rd s).trans ?_⟩
  rw [functSelector, aluResult_c3, boolWord_decide]

/-- Settles O22: funct 36 selects the ALU's conjunction. -/
theorem andWritesTheConjunction : Obligations.AndWritesTheConjunction := fun rs rt rd s =>
  ⟨wordR_funct .and rs rt rd, exec_rTypeInstr_eq .and rs rt rd s⟩

/-- Settles O23: funct 37 selects the ALU's disjunction. -/
theorem orWritesTheDisjunction : Obligations.OrWritesTheDisjunction := fun rs rt rd s =>
  ⟨wordR_funct .or rs rt rd, exec_rTypeInstr_eq .or rs rt rd s⟩

/-- Settles O24: funct 4 selects the ALU's shift, which keeps the low half of its second operand. -/
theorem shiftWritesLowHalfShiftedUp : Obligations.ShiftWritesLowHalfShiftedUp := fun rs rt rd s =>
  ⟨wordR_funct .shift rs rt rd, s.reg rt <<< 16, shift16_toNat (s.reg rt), exec_rTypeInstr_eq .shift rs rt rd s⟩

/-- Settles O25: funct 39 selects the ALU's complement, of its first operand. -/
theorem norWritesTheComplement : Obligations.NorWritesTheComplement := fun rs rt rd s =>
  ⟨wordR_funct .nor rs rt rd, exec_rTypeInstr_eq .nor rs rt rd s⟩

/-- Settles O27: `andi` runs under the row with selector 4, the ALU's conjunction. -/
theorem andiWritesConjunctionWithExtended : Obligations.AndiWritesConjunctionWithExtended := fun rs rt imm s =>
  ⟨Laws.EncodedOpcode.andi rs rt imm, rfl,
    runInstr_of_immediateRow (op := .andi) (sel := .c4) rfl rfl rs rt imm s⟩

/-- Settles O29: `slti` runs under the row with selector 2, the ALU's signed comparison. -/
theorem sltiWritesSignedLessThan : Obligations.SltiWritesSignedLessThan := by
  refine fun rs rt imm s => ⟨Laws.EncodedOpcode.slti rs rt imm, ?_⟩
  refine (runInstr_of_immediateRow (op := .slti) (sel := .c2) rfl rfl rs rt imm s).trans ?_
  rw [aluResult_c2, boolWord_decide]

/-- Settles O30: `sltiu` runs under the row with selector 3, the ALU's unsigned comparison. -/
theorem sltiuWritesUnsignedLessThan : Obligations.SltiuWritesUnsignedLessThan := by
  refine fun rs rt imm s => ⟨Laws.EncodedOpcode.sltiu rs rt imm, ?_⟩
  refine (runInstr_of_immediateRow (op := .sltiu) (sel := .c3) rfl rfl rs rt imm s).trans ?_
  rw [aluResult_c3, boolWord_decide]

end Sys2Proof.Machine
end

section
/-!
The control transfers (spec/44_control_transfer.md) under the rows of the control table, and `beq` and `bge` under the rows
that the model does not run with (spec/90_conflicts.md C2, C3). Then the fields that no instruction looks at (R69).
-/

namespace Sys2Proof.Machine

/-! ### The three transfers -/

/-- Settles O38: Zero of the ALU's addition is true when the sum is 0 modulo 2^32. -/
theorem beqBranchesOnZeroSum : Obligations.BeqBranchesOnZeroSum := by
  refine fun rs rt imm s => ⟨Laws.EncodedOpcode.beq rs rt imm, ?_⟩
  have hzero : zeroFlag (s.reg rs + signExtend imm) = true ↔
      ((s.reg rs).toNat + (signExtend imm).toNat) % 2 ^ 32 = 0 := by
    rw [zeroFlag_iff, ← BitVec.toNat_inj, BitVec.toNat_add]
    rfl
  simp only [exec_beq_eq, hzero]

/-- An immediate that is 0 once extended and shifted up by 16 was 0: no bit of it is shifted out (R141). -/
theorem signExtend_shift16_eq_zero_iff (imm : Imm16) : signExtend imm <<< 16 = 0 ↔ imm = 0 := by
  rw [← BitVec.toNat_inj, ← BitVec.toNat_inj, signExtend_shift16_toNat]
  simp

/-- The shape of `bge` (R141): it branches only with an immediate of 0, and then 0 words far. -/
theorem exec_bge_next (rs rt : RegIdx) (imm : Imm16) (s : State) :
    exec (.bge rs rt imm) s = .next (s.setPc (s.pc + 4#32)) := by
  rw [exec_bge_eq]
  split
  next hz =>
    obtain rfl : imm = 0 := (signExtend_shift16_eq_zero_iff imm).1 ((zeroFlag_iff _).1 hz)
    have hoff : signExtend 0 <<< 2 = 0#32 := by decide
    rw [hoff, BitVec.add_zero]
  next => rfl

/-- Settles O39. -/
theorem bgeOnlyAdvancesThePc : Obligations.BgeOnlyAdvancesThePc := fun rs rt imm s =>
  ⟨Laws.EncodedOpcode.bge rs rt imm, exec_bge_next rs rt imm s⟩

/-- The shape of `j` (R142). -/
theorem exec_j_eq (target : Target26) (s : State) : exec (.j target) s = .next (s.setPc (jumpAddress s.pc target)) := by
  rw [exec_eq_runInstr, runInstr, Instr.opcode, runStages_j, endStep_done]
  rfl

/-- Settles O40: the incremented pc of a fetchable pc has no bit above bit 27. -/
theorem jumpGoesToTheTarget : Obligations.JumpGoesToTheTarget := by
  refine fun target s => ⟨Laws.EncodedOpcode.j target, jumpAddress s.pc target, exec_j_eq target s, rfl, fun hle => ?_⟩
  rw [jumpAddress_toNat, BitVec.toNat_add, BitVec.toNat_ofNat]
  omega

/-! ### The branch rows not adopted -/

/-- A comparison's word is 0 when the comparison fails. -/
theorem boolWord_eq_zero_iff (b : Bool) : boolWord b = 0 ↔ b = false := by
  cases b <;> decide

/-- Settles O17: a difference is 0 when the registers are equal, and a signed less-than is 0 when it fails. -/
theorem alternativeBranchRowsCompareRegisters : Obligations.AlternativeBranchRowsCompareRegisters := by
  refine fun cfg rs rt imm s => ⟨fun hcfg => ?_, fun hcfg => ?_⟩
  · have hzero : zeroFlag (aluResult (s.reg rs) (s.reg rt) .c1) = true ↔ s.reg rs = s.reg rt := by
      rw [zeroFlag_iff, aluResult_c1]
      exact sub_eq_zero
    simp only [controlRow, hcfg]
    rw [runStages_transfer (sel := .c1) rfl rfl rfl rfl, pcUpdate_branch rfl rfl]
    simp only [operandB, isAsserted_zero, Bool.false_eq_true, if_false, hzero]
  · have hzero : zeroFlag (aluResult (s.reg rs) (s.reg rt) .c2) = true ↔ (s.reg rt).toInt ≤ (s.reg rs).toInt := by
      rw [zeroFlag_iff, aluResult_c2, boolWord_eq_zero_iff, decide_eq_false_iff_not, not_lt]
    simp only [controlRow, hcfg]
    rw [runStages_transfer (sel := .c2) rfl rfl rfl rfl, pcUpdate_branch rfl rfl]
    simp only [operandB, isAsserted_zero, Bool.false_eq_true, if_false, hzero]

/-! ### What is not looked at -/

/-- Bits 10:6 of an R-type word are in no field that the decoder reads. -/
theorem decode_and_ignored {w : Word} (hop : (partition w).opcode = Opcode.rType.code) :
    decode (w &&& 0xFFFFF83F) = decode w := by
  obtain ⟨hop', hrs, hrt, hrd, hfn⟩ := partition_and_ignored w
  rw [decode_of_opcode (hop'.trans hop), decode_of_opcode hop]
  simp only [decodeRow, hrs, hrt, hrd, hfn]

/-- Settles O8: the decoder reads an R-type word through the mask, and each shape names only the fields it uses. -/
theorem ignoredBitsHaveNoEffect : Obligations.IgnoredBitsHaveNoEffect := by
  refine ⟨fun w v hop hwv => ?_, fun r r' rt rd s => ?_, fun rs r r' rd s => ?_, fun r r' rt imm s => ?_,
    fun rs r r' imm s => ?_, fun r r' q q' imm imm' s => ?_⟩
  · have hopv : (partition v).opcode = Opcode.rType.code := by
      rw [← (partition_and_ignored v).1, ← hwv, (partition_and_ignored w).1]
      exact hop
    rw [← decode_and_ignored hop, hwv, decode_and_ignored hopv]
  · exact (exec_rTypeInstr_eq .shift r rt rd s).trans (exec_rTypeInstr_eq .shift r' rt rd s).symm
  · exact (exec_rTypeInstr_eq .nor rs r rd s).trans (exec_rTypeInstr_eq .nor rs r' rd s).symm
  · rw [exec_lui_eq, exec_lui_eq]
  · rw [exec_beq_eq, exec_beq_eq]
  · rw [exec_bge_next, exec_bge_next]

end Sys2Proof.Machine
end

section
/-!
The load and the store (spec/43_loadstore.md): completed, misaligned (R154) and beyond the memory (R157).
-/

namespace Sys2Proof.Machine

theorem inMemory_false_iff (a : Word) : inMemory a = false ↔ 65535 < a.toNat := by
  rw [← Bool.not_eq_true, inMemory_iff, not_le]

theorem memRead_beyond (m : Memory) {a : Word} (hal : a.toNat % 4 = 0) (hgt : 65535 < a.toNat) :
    memRead m a = .fault .dataAddressRange :=
  memRead_eq_fault.2 ⟨(isAligned_iff a).2 hal, (inMemory_false_iff a).2 hgt, rfl⟩

theorem memWrite_beyond (m : Memory) {a : Word} (v : Word) (hal : a.toNat % 4 = 0) (hgt : 65535 < a.toNat) :
    memWrite m a v = .fault .dataAddressRange :=
  memWrite_eq_fault.2 ⟨(isAligned_iff a).2 hal, (inMemory_false_iff a).2 hgt, rfl⟩

/-- Settles O32: the read primitive goes on with the word there. -/
theorem lwLoadsTheWord : Obligations.LwLoadsTheWord := by
  intro rs rt imm s hal hle
  rw [exec_lw_eq, effectiveAddress, memRead_of_bounds s.mem hal hle]
  rfl

/-- Settles O33: the write primitive goes on with the word there replaced. -/
theorem swStoresTheWord : Obligations.SwStoresTheWord := by
  intro rs rt imm s hal hle
  rw [exec_sw_eq, effectiveAddress, memWrite_of_bounds s.mem (s.reg rt) hal hle]
  rfl

/-- Settles O35: past the alignment check the range check faults. -/
theorem accessBeyondMemoryFaults : Obligations.AccessBeyondMemoryFaults := by
  intro rs rt imm s hal hgt
  constructor
  · rw [exec_lw_eq, effectiveAddress, memRead_beyond s.mem hal hgt]
    rfl
  · rw [exec_sw_eq, effectiveAddress, memWrite_beyond s.mem (s.reg rt) hal hgt]
    rfl

/-- A misaligned access halts (R154). -/
theorem exec_of_misaligned {s : State} {rs : RegIdx} {imm : Imm16} (rt : RegIdx)
    (hal : (effectiveAddress s rs imm).toNat % 4 ≠ 0) :
    exec (.lw rs rt imm) s = .next (s.setRun .halted) ∧ exec (.sw rs rt imm) s = .next (s.setRun .halted) := by
  constructor
  · rw [exec_lw_eq, memRead_of_misaligned s.mem hal]
    rfl
  · rw [exec_sw_eq, memWrite_of_misaligned s.mem (s.reg rt) hal]
    rfl

/-- A `sw` that leaves a RUNNING machine RUNNING has stored its word, at an aligned address of the memory. -/
theorem exec_sw_completed {rs rt : RegIdx} {imm : Imm16} {s t : State} (h : exec (.sw rs rt imm) s = .next t)
    (hrun : t.run = .running) :
    isAligned (effectiveAddress s rs imm) = true ∧ inMemory (effectiveAddress s rs imm) = true ∧
      t = (s.setMem (s.mem.write (wordIndex (effectiveAddress s rs imm)) (s.reg rt))).setPc (s.pc + 4#32) := by
  rw [exec_sw_eq, endStep_eq_next] at h
  rcases h with hdone | ⟨-, rfl⟩
  · obtain ⟨m, hm, ht⟩ := Stage.bind_eq_done.1 hdone
    obtain ⟨hal, hin, rfl⟩ := memWrite_eq_done.1 hm
    exact ⟨hal, hin, by simpa using ht.symm⟩
  · cases hrun

/-- Settles O36: the load reads the word written at the same index, and each of the two moves the pc 4 on. -/
theorem storeThenLoadReturnsTheWord : Obligations.StoreThenLoadReturnsTheWord := by
  intro rs rt rs' rt' imm imm' s t hwf _ hst hrun haddr
  obtain ⟨hal, hin, ht⟩ := exec_sw_completed hst hrun
  have hea : effectiveAddress t rs' imm' = effectiveAddress s rs imm := haddr
  have hread : memRead t.mem (effectiveAddress s rs imm) = .done (s.reg rt) := by
    rw [ht]
    exact memRead_eq_done.2 ⟨hal, hin, Memory.read_write_same hwf⟩
  have hpc : t.pc + 4#32 = s.pc + 8#32 := by
    rw [ht]
    exact BitVec.add_assoc s.pc 4#32 4#32
  rw [exec_lw_eq, hea, hread, Stage.bind_done, endStep_done, hpc]

end Sys2Proof.Machine
end

section
/-!
What an instruction can do: which ones access data, where each of them halts or faults, and where the pc goes.
-/

namespace Sys2Proof.Machine

/-! ### Data accesses, halts and faults -/

theorem runStages_lw (rs rt : RegIdx) (imm : Imm16) (s : State) :
    runStages (controlTable .lw) (fieldsOf (.lw rs rt imm)) s =
      (memRead s.mem (effectiveAddress s rs imm)).bind fun w => .done ((s.setReg rt w).setPc (s.pc + 4#32)) := by
  rw [runStages_load (sel := .c0) rfl rfl rfl rfl rfl, aluResult_c0]
  simp only [pcUpdate_next (c := controlTable .lw) rfl rfl]
  rfl

theorem runStages_sw (rs rt : RegIdx) (imm : Imm16) (s : State) :
    runStages (controlTable .sw) (fieldsOf (.sw rs rt imm)) s =
      (memWrite s.mem (effectiveAddress s rs imm) (s.reg rt)).bind fun m =>
        .done ((s.setMem m).setPc (s.pc + 4#32)) := by
  rw [runStages_store (sel := .c0) rfl rfl rfl rfl, aluResult_c0]
  simp only [pcUpdate_next (c := controlTable .sw) rfl rfl]
  rfl

/-- An instruction that accesses data is a `lw` or a `sw`, at its effective address (R40). -/
theorem dataAddress_eq_some {i : Instr} {s : State} {a : Word} (h : dataAddress i s = some a) :
    ∃ rs rt imm, (i = .lw rs rt imm ∨ i = .sw rs rt imm) ∧ a = effectiveAddress s rs imm := by
  cases i with
  | lw rs rt imm => cases h; exact ⟨rs, rt, imm, .inl rfl, rfl⟩
  | sw rs rt imm => cases h; exact ⟨rs, rt, imm, .inr rfl, rfl⟩
  | add | sub | slt | sltu | and | or | shift | nor | addi | andi | ori | slti | sltiu | lui | beq | bge | j => cases h

/-- An instruction that accesses no data completes. -/
theorem runStages_of_no_dataAddress {i : Instr} {s : State} (h : dataAddress i s = none) :
    ∃ t, runStages (controlTable i.opcode) (fieldsOf i) s = .done t := by
  cases i with
  | lw | sw => cases h
  | beq | bge | j => exact ⟨_, runStages_transfer rfl rfl rfl rfl⟩
  | add | sub | slt | sltu | and | or | shift | nor | addi | andi | ori | slti | sltiu | lui =>
    exact ⟨_, runStages_register rfl rfl rfl rfl rfl⟩

/-- An instruction's stages halt exactly at a misaligned data address (R154). -/
theorem runStages_instr_eq_halt {i : Instr} {s : State} {c : HaltCause} :
    runStages (controlTable i.opcode) (fieldsOf i) s = .halt c ↔
      (∃ a, dataAddress i s = some a ∧ isAligned a = false) ∧ c = .memAlign := by
  cases hd : dataAddress i s with
  | none =>
    obtain ⟨t, ht⟩ := runStages_of_no_dataAddress hd
    simp [ht]
  | some a =>
    obtain ⟨rs, rt, imm, rfl | rfl, rfl⟩ := dataAddress_eq_some hd
    · simp [Instr.opcode, runStages_lw, Stage.bind_eq_halt, memRead_eq_halt]
    · simp [Instr.opcode, runStages_sw, Stage.bind_eq_halt, memWrite_eq_halt]

/-- They fault exactly at an aligned data address beyond the memory (R157). -/
theorem runStages_instr_eq_fault {i : Instr} {s : State} {r : Fault} :
    runStages (controlTable i.opcode) (fieldsOf i) s = .fault r ↔
      (∃ a, dataAddress i s = some a ∧ isAligned a = true ∧ inMemory a = false) ∧ r = .dataAddressRange := by
  cases hd : dataAddress i s with
  | none =>
    obtain ⟨t, ht⟩ := runStages_of_no_dataAddress hd
    simp [ht]
  | some a =>
    obtain ⟨rs, rt, imm, rfl | rfl, rfl⟩ := dataAddress_eq_some hd
    · simp [Instr.opcode, runStages_lw, Stage.bind_eq_fault, memRead_eq_fault, and_assoc]
    · simp [Instr.opcode, runStages_sw, Stage.bind_eq_fault, memWrite_eq_fault, and_assoc]

/-- An instruction other than `lw` and `sw` accesses no data. -/
theorem dataAddress_eq_none {i : Instr} (hlw : ∀ rs rt imm, i ≠ .lw rs rt imm) (hsw : ∀ rs rt imm, i ≠ .sw rs rt imm)
    (s : State) : dataAddress i s = none := by
  cases hd : dataAddress i s with
  | none => rfl
  | some a =>
    obtain ⟨rs, rt, imm, hi | hi, -⟩ := dataAddress_eq_some hd
    · exact absurd hi (hlw rs rt imm)
    · exact absurd hi (hsw rs rt imm)

/-- Settles O34: a misaligned address stops the primitive, and without a data address the stages go on to the end. -/
theorem misalignedAccessHalts : Obligations.MisalignedAccessHalts := by
  refine ⟨fun rs rt imm s hal => exec_of_misaligned rt hal, fun i s hlw hsw => ?_⟩
  obtain ⟨t, ht⟩ := runStages_of_no_dataAddress (dataAddress_eq_none hlw hsw s)
  refine ⟨t, ?_, (runStages_frame ht).1⟩
  rw [exec_eq_runInstr, runInstr, ht, endStep_done]

/-! ### The pc -/

/-- Under a row that neither branches nor jumps the pc moves 4 on. -/
theorem runStages_done_pc_next {c : Control} {f : Fields} {s t : State} (h : runStages c f s = .done t)
    (hj : isAsserted c.jump = false) (hb : isAsserted c.branch = false) : t.pc = s.pc + 4#32 := by
  obtain ⟨_, _, _, _, -, -, -, -, rfl⟩ := runStages_eq_done h
  exact pcUpdate_next hj hb _ _ _ _

/-- An instruction that completes has moved the pc to its `nextPc` (R27). -/
theorem runStages_done_pc {i : Instr} {s t : State}
    (h : runStages (controlTable i.opcode) (fieldsOf i) s = .done t) : t.pc = nextPc i s := by
  cases i with
  | beq rs rt imm =>
    have hexec := exec_beq_eq rs rt imm s
    rw [exec_eq_runInstr, runInstr, h, endStep_done] at hexec
    cases hexec
    simp only [State.setPc_pc, nextPc, zeroFlag_iff]
  | bge rs rt imm =>
    have hexec := exec_bge_next rs rt imm s
    rw [exec_eq_runInstr, runInstr, h, endStep_done] at hexec
    cases hexec
    rfl
  | j target =>
    rw [Instr.opcode, runStages_j] at h
    cases h
    rfl
  | add | sub | slt | sltu | and | or | shift | nor | addi | andi | ori | slti | sltiu | lui | lw | sw =>
    exact runStages_done_pc_next h rfl rfl

/-- Settles O43: an instruction that answers a next state has completed or taken a halt. -/
theorem pcAfterEveryInstruction : Obligations.PcAfterEveryInstruction := by
  intro i s t h
  rcases exec_eq_next h with hdone | ⟨-, hhalt⟩
  · exact .inl ⟨runStages_done_pc hdone, (runStages_frame hdone).1⟩
  · exact .inr hhalt

/-- Alignment is kept by adding a multiple of 4. -/
theorem isAligned_add {a b : Word} (ha : isAligned a = true) (hb : isAligned b = true) : isAligned (a + b) = true := by
  rw [isAligned_iff] at *
  rw [BitVec.toNat_add]
  omega

theorem isAligned_shiftLeft_two (a : Word) : isAligned (a <<< 2) = true := by
  rw [isAligned_iff, BitVec.toNat_shiftLeft, Nat.shiftLeft_eq]
  omega

theorem isAligned_jumpAddress (pc : Word) (target : Target26) : isAligned (jumpAddress pc target) = true := by
  rw [isAligned_iff, jumpAddress_toNat]
  omega

/-- Every instruction keeps the pc aligned (R28). -/
theorem isAligned_nextPc (i : Instr) {s : State} (h : isAligned s.pc = true) : isAligned (nextPc i s) = true := by
  have hnext : isAligned (s.pc + 4#32) = true := isAligned_add h (by decide)
  cases i with
  | beq rs rt imm =>
    rw [nextPc]
    split
    · exact isAligned_add hnext (isAligned_shiftLeft_two _)
    · exact hnext
  | j target => exact isAligned_jumpAddress s.pc target
  | add | sub | slt | sltu | and | or | shift | nor | addi | andi | ori | slti | sltiu | lui | lw | sw | bge =>
    exact hnext

end Sys2Proof.Machine
end

section
/-!
Frames: what an instruction leaves unchanged (spec/10_state.md, spec/20_memory.md), and what it does not depend on (R26).
-/

namespace Sys2Proof.Machine

/-- Settles O48: the stages keep the memory's canonical form and every way of the pc keeps its alignment; a halt changes
neither. -/
theorem stepKeepsTheInvariants : Obligations.StepKeepsTheInvariants := by
  intro s t ⟨hmem, hpc⟩ hstep
  obtain ⟨-, ⟨-, rfl⟩ | ⟨-, -, rfl⟩ | ⟨-, i, -, hexec⟩⟩ := step_eq_next hstep
  · exact ⟨hmem, hpc⟩
  · exact ⟨hmem, hpc⟩
  · rcases exec_eq_next hexec with hdone | ⟨-, rfl⟩
    · obtain ⟨-, -, -, hwf⟩ := runStages_frame hdone
      exact ⟨hwf hmem, runStages_done_pc hdone ▸ isAligned_nextPc i hpc⟩
    · exact ⟨hmem, hpc⟩

/-- The register an instruction writes is the one its control row names (R24, R100). -/
theorem destinationOf_eq (i : Instr) :
    destinationOf i = if isAsserted (controlTable i.opcode).regWrite then
      some (destination (controlTable i.opcode) (fieldsOf i)) else none := by
  cases i <;> rfl

/-- Settles O41: the stages write the row's destination alone, and a halt writes nothing. -/
theorem onlyTheDestinationRegisterChanges : Obligations.OnlyTheDestinationRegisterChanges := by
  intro i s t h r hr
  rcases exec_eq_next h with hdone | ⟨-, rfl⟩
  · obtain ⟨-, hregs, -, -⟩ := runStages_frame hdone
    refine hregs r fun hw hrd => hr ?_
    rw [destinationOf_eq, if_pos hw, hrd]
  · rfl

/-- An instruction stores to a word exactly when its control row writes memory. -/
theorem storedIndex_eq_none_iff (i : Instr) (s : State) :
    storedIndex i s = none ↔ isAsserted (controlTable i.opcode).memWrite = false := by
  cases i with
  | sw => exact iff_of_false nofun nofun
  | add | sub | slt | sltu | and | or | shift | nor | addi | andi | ori | slti | sltiu | lui | lw | beq | bge | j =>
    exact iff_of_true rfl rfl

/-- An instruction that stores is a `sw`, at its effective address. -/
theorem storedIndex_eq_some {i : Instr} {s : State} {k : Nat} (h : storedIndex i s = some k) :
    ∃ rs rt imm, i = .sw rs rt imm ∧ k = wordIndex (effectiveAddress s rs imm) := by
  cases i with
  | sw rs rt imm => cases h; exact ⟨rs, rt, imm, rfl, rfl⟩
  | add | sub | slt | sltu | and | or | shift | nor | addi | andi | ori | slti | sltiu | lui | lw | beq | bge | j => cases h

/-- An instruction that stores nothing leaves the memory as it was. -/
theorem exec_mem_of_no_store {i : Instr} {s t : State} (h : exec i s = .next t) (hn : storedIndex i s = none) :
    t.mem = s.mem := by
  rcases exec_eq_next h with hdone | ⟨-, rfl⟩
  · obtain ⟨-, -, hmem, -⟩ := runStages_frame hdone
    exact hmem ((storedIndex_eq_none_iff i s).1 hn)
  · rfl

/-- A store leaves every word alone but the one at its index. -/
theorem exec_read_of_store {i : Instr} {s t : State} {k j : Nat} (h : exec i s = .next t) (hk : storedIndex i s = some k)
    (hj : k ≠ j) : t.mem.read j = s.mem.read j := by
  obtain ⟨rs, rt, imm, rfl, rfl⟩ := storedIndex_eq_some hk
  rcases exec_eq_next h with hdone | ⟨-, rfl⟩
  · rw [Instr.opcode, runStages_sw] at hdone
    obtain ⟨m, hm, ht⟩ := Stage.bind_eq_done.1 hdone
    obtain ⟨-, -, rfl⟩ := memWrite_eq_done.1 hm
    cases ht
    exact Memory.read_write_ne hj
  · rfl

/-- Settles O42: an instruction stores nothing, or one word. -/
theorem onlyTheStoredWordChanges : Obligations.OnlyTheStoredWordChanges := by
  refine fun i s t h => ⟨fun j hj => ?_, exec_mem_of_no_store h⟩
  cases hk : storedIndex i s with
  | none => rw [exec_mem_of_no_store h hk]
  | some k => exact exec_read_of_store h hk fun hkj => hj (by rw [hk, hkj])

/-- Register Write does not look at the pc: it does the same under another, and carries that along. -/
theorem registerWrite_setPc (c : Control) (f : Fields) (d : Option Word) (r : Word) (s : State) (p : Word) :
    registerWrite c f d r (s.setPc p) = (registerWrite c f d r s).bind fun u => .done (u.setPc p) := by
  unfold registerWrite
  split
  · split
    · cases d <;> rfl
    · rfl
  · rfl

/-- The stages under another pc: the same up to the pc they end with. -/
theorem runStages_setPc (c : Control) (f : Fields) (s : State) (p : Word) :
    ∃ q, runStages c f (s.setPc p) = (runStages c f s).bind fun t => .done (t.setPc q) := by
  simp only [runStages, State.setPc_reg, State.setPc_mem, State.setPc_pc]
  cases aluOperations c f.funct (s.reg f.rs) (s.reg f.rt) (signExtend f.imm) with
  | halt k => exact ⟨p, rfl⟩
  | fault r => exact ⟨p, rfl⟩
  | done out =>
    refine ⟨pcUpdate c f.target (signExtend f.imm) out.2 p, ?_⟩
    simp only [Stage.bind_done]
    cases memoryAccess c out.1 (s.reg f.rt) s.mem with
    | halt k => rfl
    | fault r => rfl
    | done acc =>
      have hcomm : (s.setPc p).setMem acc.2 = (s.setMem acc.2).setPc p := rfl
      simp only [Stage.bind_done, hcomm, registerWrite_setPc]
      cases registerWrite c f acc.1 out.1 (s.setMem acc.2) <;> rfl

/-- Settles O44: the stages end in the same way under either pc, and differ in the pc alone. -/
theorem noInstructionReadsThePc : Obligations.NoInstructionReadsThePc := by
  intro i s t p h
  obtain ⟨q, hq⟩ := runStages_setPc (controlTable i.opcode) (fieldsOf i) s p
  rw [exec_eq_runInstr, runInstr, hq]
  rcases exec_eq_next h with hdone | ⟨⟨c, hhalt⟩, rfl⟩
  · rw [hdone]
    exact ⟨t.setPc q, rfl, rfl, rfl, rfl⟩
  · rw [hhalt]
    exact ⟨(s.setPc p).setRun .halted, rfl, rfl, rfl, rfl⟩

end Sys2Proof.Machine
end

section
/-!
The step (spec/40_datapath_units.md R104 to R106): what it runs, what it ends in, and why it halts.
-/

namespace Sys2Proof.Machine

/-! ### Fetch, decode, run -/

/-- Settles O56: `step` looks at the run state first. -/
theorem haltedMachineHasNoStep : Obligations.HaltedMachineHasNoStep := by
  intro s hr
  rw [step, hr]

/-- A RUNNING machine runs the word it fetches, or takes the halt of a word that is no instruction. -/
theorem step_of_fetch {s : State} {w : Word} (hr : s.run = .running) (hf : fetch s.mem s.pc = .done w) :
    step s = match decode w with
      | .ok i => exec i s
      | .error _ => .next (s.setRun .halted) := by
  rw [step, hr]
  simp only [hf]
  cases decode w <;> rfl

/-- Settles O46. -/
theorem stepRunsTheDecodedInstruction : Obligations.StepRunsTheDecodedInstruction := by
  intro s i hr hal hle hd
  rw [step_of_fetch hr (fetch_of_bounds s.mem hle hal), hd]

/-- Settles O57: the placed word is read back where it was written, and that is where the pc points. -/
theorem placedWordIsRunNext : Obligations.PlacedWordIsRunNext := by
  intro s w hwf
  have hw : BitVec.ofNat 32 (w.toNat % 2 ^ 32) = w := by
    rw [Nat.mod_eq_of_lt w.isLt, BitVec.ofNat_toNat, BitVec.setWidth_eq]
  have hread : (s.withFetchWord 32 w.toNat).mem.read (wordIndex (s.withFetchWord 32 w.toNat).pc) = w :=
    (Memory.read_write_same hwf).trans hw
  exact step_of_fetch (s.withFetchWord_run 32 w.toNat)
    (fetch_eq_done.2 ⟨s.withFetchWord_fetchable 32 w.toNat, hread⟩)

/-- Settles O37: the store completes, the next pc is its effective address, and the fetch there reads what was stored. -/
theorem storeIsSeenByTheNextFetch : Obligations.StoreIsSeenByTheNextFetch := by
  intro rs rt imm s hwf hr hal hlt hd haddr
  have hnext : (s.pc + 4#32).toNat = s.pc.toNat + 4 := by
    rw [BitVec.toNat_add, BitVec.toNat_ofNat]
    omega
  have hal' : (s.pc + 4#32).toNat % 4 = 0 := by omega
  have hle' : (s.pc + 4#32).toNat ≤ 65535 := by omega
  have hread : (s.mem.write ((s.pc + 4#32).toNat / 4) (s.reg rt)).read ((s.pc + 4#32).toNat / 4) = s.reg rt :=
    Memory.read_write_same hwf
  refine ⟨(s.setMem (s.mem.write ((s.pc + 4#32).toNat / 4) (s.reg rt))).setPc (s.pc + 4#32), ?_, rfl, hread, ?_⟩
  · rw [stepRunsTheDecodedInstruction s _ hr hal (by omega) hd,
      swStoresTheWord rs rt imm s (haddr ▸ hal') (haddr ▸ hle'), haddr]
  · exact step_of_fetch hr ((fetch_of_bounds _ hle' hal').trans (congrArg Stage.done hread))

/-! ### The orchestrator -/

/-- Settles O47: neither has a step when HALTED, and when RUNNING both end as the nine stages do. -/
theorem stepIsTheNineStageCycle : Obligations.StepIsTheNineStageCycle := by
  intro s
  cases hr : s.run with
  | halted => rw [haltedMachineHasNoStep s hr, cycle, hr]
  | running => rw [step_eq_endStep_cycleStages hr, cycle, hr]

/-! ### Why a step halts -/

theorem haltCause_eq_some {s : State} {c : HaltCause} : haltCause s = some c ↔ cycleStages s = .halt c := by
  unfold haltCause
  cases cycleStages s <;> simp

theorem haltCause_eq_none {s : State} : haltCause s = none ↔ ∀ c, cycleStages s ≠ .halt c := by
  rw [Option.eq_none_iff_forall_ne_some]
  exact forall_congr' fun c => not_congr haltCause_eq_some

/-- The nine stages halt at the fetch, in the decoder, or at a misaligned data address, whichever comes first (R156). -/
theorem cycleStages_eq_halt {s : State} {c : HaltCause} :
    cycleStages s = .halt c ↔
      (isFetchable s.pc = false ∧ c = .fetchAddress) ∨
      (isFetchable s.pc = true ∧ decode (s.mem.read (wordIndex s.pc)) = .error c) ∨
      (isFetchable s.pc = true ∧
        (∃ i a, decode (s.mem.read (wordIndex s.pc)) = .ok i ∧ dataAddress i s = some a ∧ isAligned a = false) ∧
        c = .memAlign) := by
  cases hpc : isFetchable s.pc with
  | false =>
    have hf : fetch s.mem s.pc = .halt .fetchAddress := fetch_eq_halt.2 ⟨hpc, rfl⟩
    rw [cycleStages, hf, Stage.bind_halt]
    simp [eq_comm (a := c)]
  | true =>
    have hf : fetch s.mem s.pc = .done (s.mem.read (wordIndex s.pc)) := fetch_eq_done.2 ⟨hpc, rfl⟩
    cases hd : decode (s.mem.read (wordIndex s.pc)) with
    | error c' => simp [cycleStages_of_decode_error hf hd]
    | ok i =>
      rw [cycleStages_of_decode_ok hf hd, runStages_instr_eq_halt]
      simp

/-- They fault exactly at the aligned data address beyond the memory of a `lw` or `sw` (R157). -/
theorem cycleStages_eq_fault {s : State} {r : Fault} (h : cycleStages s = .fault r) :
    r = .dataAddressRange ∧ ∃ i a, decode (s.mem.read (wordIndex s.pc)) = .ok i ∧ dataAddress i s = some a ∧
      isAligned a = true ∧ inMemory a = false := by
  obtain hf | ⟨w, hf, -⟩ := Stage.bind_eq_fault.1 h
  · exact absurd hf fetch_ne_fault
  · obtain ⟨-, rfl⟩ := fetch_eq_done.1 hf
    cases hd : decode (s.mem.read (wordIndex s.pc)) with
    | error c => rw [cycleStages_of_decode_error hf hd] at h; cases h
    | ok i =>
      rw [cycleStages_of_decode_ok hf hd, runStages_instr_eq_fault] at h
      obtain ⟨⟨a, hacc⟩, hr⟩ := h
      exact ⟨hr, i, a, rfl, hacc⟩

/-- Settles O54: of the three places where a stage halts, each cause has its own. -/
theorem haltCausesAreInStageOrder : Obligations.HaltCausesAreInStageOrder := by
  intro s
  refine ⟨?_, ?_, ?_, ?_⟩ <;> rw [haltCause_eq_some, cycleStages_eq_halt]
  · simp [isFetchable_false_iff, decode_ne_fetchAddress]
  · simp [isFetchable_iff, wordIndex_eq, and_assoc]
  · simp [isFetchable_iff, wordIndex_eq, and_assoc]
  · simp [isFetchable_iff, isAligned_false_iff, wordIndex_eq, decode_ne_memAlign, and_assoc]

/-- Settles O55: the nine stages go on to the end, halt, or fault, and the step ends as they do. -/
theorem stepCompletesHaltsOrFaults : Obligations.StepCompletesHaltsOrFaults := by
  intro s hr
  rw [step_eq_endStep_cycleStages hr]
  cases hx : cycleStages s with
  | done t =>
    have hnone : haltCause s = none := haltCause_eq_none.2 fun c => by simp [hx]
    exact .inl ⟨hnone, t, rfl, (cycleStages_done_run hx).trans hr⟩
  | halt c =>
    exact .inr (.inl ⟨by simp [haltCause_eq_some.2 hx], rfl⟩)
  | fault r =>
    have hnone : haltCause s = none := haltCause_eq_none.2 fun c => by simp [hx]
    obtain ⟨rfl, i, a, hd, ha, hal, hin⟩ := cycleStages_eq_fault hx
    refine .inr (.inr ⟨hnone, rfl, i, a, wordIndex_eq s.pc ▸ hd, ha, (isAligned_iff a).1 hal, ?_⟩)
    exact (inMemory_false_iff a).1 hin

end Sys2Proof.Machine
end

section
/-!
The reset, the launch, the host's writes and the run (spec/70_reset_and_hazards.md R170 to R173).
-/

namespace Sys2Proof.Machine

/-- Settles O49: reset lists no word, so every word reads as an unlisted one, and the pc is 0. -/
theorem resetStateIsRunningWithTheInvariants : Obligations.ResetStateIsRunningWithTheInvariants :=
  ⟨⟨Memory.nil_wf, by decide⟩, State.reset_run, State.reset_reg, State.reset_pc, Memory.read_nil⟩

/-! ### The launch -/

/-- An image that fits from index `k` on is in canonical form from there on. -/
theorem imageFrom_wfFrom (image : List Word) (k : Nat) (h : k + image.length ≤ memWords) :
    Memory.wfFrom k (imageFrom k image) = true := by
  induction image generalizing k with
  | nil => rfl
  | cons w rest ih =>
    rw [List.length_cons] at h
    have hrest : Memory.wfFrom (k + 1) (imageFrom (k + 1) rest) = true := ih (k + 1) (by omega)
    rw [imageFrom]
    split
    next => exact Memory.wfFrom_mono hrest (Nat.le_succ k)
    next hw => exact (Memory.wfFrom_cons ..).2 ⟨Nat.le_refl k, by omega, hw, hrest⟩

/-- An image lists nothing below its first index. -/
theorem imageFrom_read_below (image : List Word) {k j : Nat} (h : j < k) : (imageFrom k image).read j = unlistedWord := by
  induction image generalizing k with
  | nil => rfl
  | cons w rest ih =>
    have hrest : (imageFrom (k + 1) rest).read j = unlistedWord := ih (by omega)
    rw [imageFrom]
    split
    next => exact hrest
    next => rw [Memory.read, if_neg (by omega), hrest]

/-- The word of an image at its place. -/
theorem imageFrom_read (image : List Word) (k j : Nat) (h : j < image.length) :
    (imageFrom k image).read (k + j) = image[j] := by
  induction image generalizing k j with
  | nil => cases h
  | cons w rest ih =>
    rw [imageFrom]
    cases j with
    | zero =>
      split
      next hw => exact (imageFrom_read_below rest (Nat.lt_succ_self k)).trans hw.symm
      next => rw [Memory.read, Nat.add_zero, if_pos rfl, List.getElem_cons_zero]
    | succ j =>
      have hrest : (imageFrom (k + 1) rest).read (k + (j + 1)) = rest[j]'(Nat.lt_of_succ_lt_succ h) := by
        rw [← ih (k + 1) j, Nat.add_right_comm, Nat.add_assoc]
      split
      next => rw [hrest, List.getElem_cons_succ]
      next => rw [Memory.read, if_neg (by omega), hrest, List.getElem_cons_succ]

/-- Settles O58: an image of at most 16384 words is taken whole, and laid out from index 0. -/
theorem launchHoldsWhatTheHostSupplies : Obligations.LaunchHoldsWhatTheHostSupplies := by
  intro regs pc image hlen
  have hmem : (launch regs pc image).mem = imageFrom 0 image := by
    rw [launch, memWords_eq, List.take_of_length_le hlen]
  refine ⟨rfl, rfl, rfl, ?_, fun k hk => ?_⟩
  · rw [hmem]
    exact imageFrom_wfFrom image 0 (by rw [memWords_eq]; omega)
  · rw [hmem, ← imageFrom_read image 0 k hk, Nat.zero_add]

/-! ### The host's writes -/

/-- A host write inside the memory is a write of the word array. -/
theorem hostWriteMem_eq (s : State) {k : Nat} (v : Word) (h : k < 16384) :
    hostWriteMem s k v = s.setMem (s.mem.write k v) := if_pos h

/-- Settles O59: each of the three is one state update. -/
theorem hostWriteChangesOnePlace : Obligations.HostWriteChangesOnePlace := by
  intro s v hwf
  refine ⟨fun i => ⟨s.setReg_reg_same i v, fun r hr => s.setReg_reg_ne i r v hr, rfl, rfl, rfl⟩, fun k hk => ?_,
    rfl, rfl, rfl, rfl⟩
  rw [hostWriteMem_eq s v hk]
  exact ⟨Memory.read_write_same hwf, fun j hj => Memory.read_write_ne hj.symm, Memory.write_wf hwf hk, rfl, rfl, rfl⟩

/-! ### The run -/

theorem runCycles_of_halted (n : Nat) {s : State} (h : s.run = .halted) : runCycles n s = .next s := by
  cases n with
  | zero => rfl
  | succ n => simp only [runCycles, h]

/-- A RUNNING machine with a step left goes on from what the step answers. -/
theorem runCycles_of_next (n : Nat) {s t : State} (hr : s.run = .running) (h : step s = .next t) :
    runCycles (n + 1) s = runCycles n t := by
  simp only [runCycles, hr, h]

theorem runCycles_of_fault (n : Nat) {s : State} {r : Fault} (hr : s.run = .running) (h : step s = .fault r) :
    runCycles (n + 1) s = .fault r := by
  simp only [runCycles, hr, h]

/-- A step that halts ends the run in HALTED, however many steps are left. -/
theorem runCycles_of_haltCause (n : Nat) {s : State} (hr : s.run = .running) (h : haltCause s ≠ none) :
    runCycles (n + 1) s = .next (s.setRun .halted) := by
  obtain ⟨c, hc⟩ := Option.ne_none_iff_exists'.1 h
  rw [runCycles_of_next n hr (step_of_cycleStages_halt hr (haltCause_eq_some.1 hc)), runCycles_of_halted n rfl]

/-- Runs compose, by induction on the steps of the first. -/
theorem runCycles_add (m n : Nat) {s t : State} (h : runCycles m s = .next t) : runCycles (m + n) s = runCycles n t := by
  induction m generalizing s with
  | zero =>
    cases h
    rw [Nat.zero_add]
  | succ m ih =>
    cases hr : s.run with
    | halted =>
      obtain rfl : s = t := by simpa [runCycles_of_halted (m + 1) hr] using h
      rw [runCycles_of_halted _ hr, runCycles_of_halted _ hr]
    | running =>
      rw [Nat.succ_add]
      cases hs : step s with
      | next u =>
        rw [runCycles_of_next m hr hs] at h
        rw [runCycles_of_next (m + n) hr hs, ih h]
      | fault r =>
        rw [runCycles_of_fault m hr hs] at h
        cases h
      | refused r => exact absurd hs step_ne_refused

/-- Settles O60. -/
theorem runStopsOnHaltedOrAfterItsSteps : Obligations.RunStopsOnHaltedOrAfterItsSteps :=
  ⟨fun _ => rfl, fun n _ _ hr h => runCycles_of_next n hr h, fun n _ h => runCycles_of_halted n h,
    fun n _ hr h => runCycles_of_haltCause n hr h, fun n _ _ hr h => runCycles_of_fault n hr h,
    fun m n _ _ h => runCycles_add m n h⟩

end Sys2Proof.Machine
end
